-- ==== Sys2Proof/Word.lean ====
section
/-! DEFINITION. The plain data types of the codec-composer block: the field widths of R7, the value
domains of R10, and the enumerations of the Device State (R27) and of the request operands (R56). -/

namespace Sys2Proof

/-- One emitted register word, D15..D0 (R7 `WORD_BITS`, R9). -/
abbrev Word := BitVec 16

/-- One byte handed to a byte-transfer transport (R42). -/
abbrev Byte := BitVec 8

/-- A 28-bit frequency tuning word (R7 `FTW_BITS`). -/
abbrev Tuning := BitVec 28

/-- One 14-bit half of a tuning word (R7 `HALF_BITS`). -/
abbrev Half := BitVec 14

/-- A 12-bit phase word (R7 `PHASE_BITS`). -/
abbrev PhaseWord := BitVec 12

/-- The 8-bit composer input vector `civ` (R60). -/
abbrev Civ := BitVec 8

/-- A register slot (R14 "Slot"): REG0 ("primary") or REG1 ("secondary"). -/
inductive Reg where
  | reg0
  | reg1
  deriving DecidableEq, Repr, Inhabited

/-- The four values of the 2-bit slot operand (R58): the two registers, the shorthand SAME, and the
code 3, which is illegal everywhere. -/
inductive SlotCode where
  | reg0
  | reg1
  | same
  | illegal
  deriving DecidableEq, Repr, Inhabited

/-- The slot code that names a register (R58). -/
def Reg.toSlot : Reg → SlotCode
  | .reg0 => .reg0
  | .reg1 => .reg1

/-- The waveform selection of one frequency slot (R27, R59). -/
inductive Waveform where
  | sine
  | triangle
  | square
  | halfSquare
  deriving DecidableEq, Repr, Inhabited

/-- A numeric operand as a front end presents it (R92): a finite value is the exact rational it
denotes (R10, `ℚ`), and NaN and the two infinities are the non-finite values of R145. -/
inductive Number where
  | rat (q : Rat)
  | nan
  | inf (negative : Bool)
  deriving DecidableEq, Repr, Inhabited

/-- An operand position of a request (R140, `FAULT.info`). -/
inductive Position where
  | a
  | b
  deriving DecidableEq, Repr, Inhabited

/-- "An indexed pair ... keyed by the two-valued slot enumeration" (R27). -/
structure Pair (α : Type) where
  reg0 : α
  reg1 : α
  deriving DecidableEq, Repr, Inhabited

/-- The Device State record (R27). SAME has no place in `fsel` and `psel`: it is never stored (R31). -/
structure DeviceState where
  freq  : Pair Rat
  phase : Pair Rat
  wave  : Pair Waveform
  outEn : Bool
  sleep : Bool
  fsel  : Reg
  psel  : Reg
  deriving DecidableEq, Repr, Inhabited

/-- The named, non-header, non-reserved bits of a control word other than D13, under the labels of
R63. -/
structure CtrlBits where
  fsel     : Bool  -- D11
  psel     : Bool  -- D10
  reset    : Bool  -- D8
  sleep1   : Bool  -- D7
  sleep12  : Bool  -- D6
  opbiten  : Bool  -- D5
  div2     : Bool  -- D3
  mode     : Bool  -- D1
  deriving DecidableEq, Repr, Inhabited

/-- The write type that the header D15:D14 of a word selects (R61, R62). -/
inductive WordClass where
  | control
  | freq (r : Reg)
  | phase
  deriving DecidableEq, Repr, Inhabited

/-- The bit order within a byte on the serial line (R43). -/
inductive BitOrder where
  | msbFirst
  | lsbFirst
  deriving DecidableEq, Repr, Inhabited

end Sys2Proof
end

