-- ==== Sys2Proof/Config.lean ====
section
/-! DEFINITION. What is fixed for the machine: the constants of R7, the parameters of R8 that no rule
reads, and the free values, for which the spec names no value (each `opaque`: nothing can evaluate it). -/

namespace Sys2Proof.Config

/-- `F_MIN` (R7): the exact decimal 1/10 (decision D2). -/
def fMin : Rat := 1 / 10

/-- `F_MAX` (R7). -/
def fMax : Rat := 12500000

/-- `PHASE_TURN` (R7). -/
def phaseTurn : Rat := 360

/-- `PHASE_STEPS` = 2^12 (R7). -/
def phaseSteps : Rat := 4096

/-- `FTW_SCALE` = 2^28 (R7). -/
def ftwScale : Rat := 268435456

/-- `REF_DEFAULT` (R7, R21). -/
def refDefault : Rat := 25000000

/-- `SERIAL_BIT_ORDER` (R8, R43): decided most-significant bit first (decision D13). -/
def serialBitOrder : BitOrder := .msbFirst

/-- `RESET_SETTLE` (R8, R160): the OPEN external delay after the reset-only word, a duration ≥ 0 in a
unit the source leaves ambiguous (90_conflicts C9). No rule reads it. -/
opaque resetSettle : Nat

/-- Free value: `REF` of an instance whose construction was rejected ("`REF` is not set", R141). -/
opaque unsetReference : Rat

/-- Free value: the Device State of a rejected construction ("is not initialised", R141). -/
opaque uninitialisedDevice : DeviceState

/-- Free value: the chip's frequency registers before any word (R34, R35; I11 `any value`). -/
opaque chipFreqAtReset : Pair Tuning

/-- Free value: the chip's phase registers before any word (R34, R35; I11 `any value`). -/
opaque chipPhaseAtReset : Pair PhaseWord

/-- Free value: the chip's control register before any word (R26, R34; I11 `any value`). -/
opaque chipControlAtReset : Word

/-- Free value: whether the chip sleeps before any word (R34, R155; I11 `any value`). -/
opaque chipSleepingAtReset : Bool

/-- Free value: the command type the chip was last given before any word (R34; I11 `any value`). -/
opaque chipLastAtReset : WordClass

/-- Free values: what the chip's frequency registers hold where the spec says `any value` (I12, I17).
The argument is the number of words the chip has taken, so every occasion has a value of its own. -/
opaque freeChipFreq : Nat → Pair Tuning

/-- Free values: what the chip's phase registers hold where the spec says `any value` (R34, I8, I17). -/
opaque freeChipPhase : Nat → Pair PhaseWord

/-- Free values: the chip's control register after a word to which the spec refuses a meaning (I8). -/
opaque freeChipControl : Nat → Word

/-- Free values: whether the chip sleeps after a word to which the spec refuses a meaning (I8). -/
opaque freeChipSleeping : Nat → Bool

end Sys2Proof.Config
end

