-- ==== Sys2Proof/HostProgram.lean ====
section
/-! DEFINITION. The program text (R16): the host's sequence of operations, as the statements of R69 and
R70. An operand is a literal or a name bound by an earlier `->`. -/

namespace Sys2Proof

/-- A host name (R69 "a name bound by an earlier `->`"), as it is spelt. -/
abbrev Name := List Char

/-- An operand of a statement (R69). Field codes, slot names and waveform names are the integers of R58,
R59 and R60. -/
inductive Arg where
  | lit (n : Number)
  | name (x : Name)
  deriving DecidableEq, Repr

/-- The pseudo-instructions of R70: the Write Sequencer operations. -/
inductive OpKind where
  | setFreq
  | incFreq
  | setPhase
  | incPhase
  | setWave
  | enable
  | reset
  | sleep
  | setSrc
  deriving DecidableEq, Repr

/-- A Write Sequencer operation with its operands at their types (R121 to R129). A slot argument is a
slot code, so that the illegal ones of R130 can be presented. -/
inductive HostOp where
  /-- SETFREQ s, hz (R121). -/
  | setFreq (s : SlotCode) (hz : Number)
  /-- INCFREQ s, d (R122). -/
  | incFreq (s : SlotCode) (d : Number)
  /-- SETPHASE s, deg (R123). -/
  | setPhase (s : SlotCode) (deg : Number)
  /-- INCPHASE s, d (R124). -/
  | incPhase (s : SlotCode) (d : Number)
  /-- SETWAVE s, wf (R125). -/
  | setWave (s : SlotCode) (wf : Waveform)
  /-- ENABLE b (R126). -/
  | enable (b : Bool)
  /-- RESET (R127). -/
  | reset
  /-- SLEEP b (R128). -/
  | sleep (b : Bool)
  /-- SETSRC fs, ps (R129). -/
  | setSrc (fs ps : SlotCode)
  deriving DecidableEq, Repr

/-- One line of the host's program (R69, R70). -/
inductive Stmt where
  /-- A block request `(OPSEL, A, B) -> names` (R53, R69). -/
  | request (opsel : BitVec 4) (a b : Arg) (into : List Name)
  /-- A Write Sequencer operation (R70). -/
  | op (k : OpKind) (a b : Arg)
  /-- `EMIT x`: hand the u16 value x to the transport (R69, R119). -/
  | emit (x : Arg)
  deriving DecidableEq, Repr

end Sys2Proof
end

