-- ==== Sys2Proof/Syntax.lean ====
section
/-! DEFINITION. The instructions: one constructor per row of spec/opcode_table.json. A `request` row is
one block operation with its operands at the types of R54 and R56. An `output_word_16` row is one class
of register word, and stands for handing that word to the transport (`EMIT`, R69, R119). -/

namespace Sys2Proof

/-- The rows of the opcode table. -/
inductive Instr where
  /-- FCLAMP, OPSEL 0x1 (R81): clamp a frequency in hertz to the chip's range. -/
  | fclamp (f : Number)
  /-- FTW, OPSEL 0x2 (R82): hertz to 28-bit tuning word. -/
  | ftw (f : Number)
  /-- W2F, OPSEL 0x3 (R84): 28-bit tuning word to hertz. -/
  | w2f (w : Tuning)
  /-- SPLIT, OPSEL 0x4 (R86): tuning word to its two 14-bit halves. -/
  | split (w : Tuning)
  /-- RES, OPSEL 0x5 (R88): the frequency step. -/
  | res
  /-- PNORM, OPSEL 0x6 (R89): normalise degrees into [0, 360). -/
  | pnorm (p : Number)
  /-- PHW, OPSEL 0x7 (R90): degrees to 12-bit phase word. -/
  | phw (p : Number)
  /-- TAGF, OPSEL 0x8 (R97): tag a frequency half with its register header. -/
  | tagf (s : SlotCode) (h : Half)
  /-- TAGP, OPSEL 0x9 (R99): tag a phase word with the phase header and slot bit. -/
  | tagp (s : SlotCode) (v : PhaseWord)
  /-- CCW, OPSEL 0xA (R104): compose the control word. -/
  | ccw (c : Civ)
  /-- RESOLVE, OPSEL 0xB (R109): resolve the active-phase selector. -/
  | resolve (fs ps : SlotCode)
  /-- RSTW, OPSEL 0xC (R110): the literal reset-only control word. -/
  | rstw
  /-- OPSEL 0x0 (R55, R143): spells no operation and raises ILLEGAL_OPSEL. -/
  | illegal0
  /-- OPSEL 0xD (R55, R143): spells no operation and raises ILLEGAL_OPSEL. -/
  | illegalD
  /-- OPSEL 0xE (R55, R143): spells no operation and raises ILLEGAL_OPSEL. -/
  | illegalE
  /-- OPSEL 0xF (R55, R143): spells no operation and raises ILLEGAL_OPSEL. -/
  | illegalF
  /-- CTRL, `0010FP0RSSQ0H0M0` (R63): hand a control word with D13 = 1 to the transport. -/
  | ctrl (b : CtrlBits)
  /-- RSTWORD, 0x0100 (R110): hand the reset-only word to the transport. -/
  | rstWord
  /-- FREQ0, `01hhhhhhhhhhhhhh` (R65): hand a REG0 frequency half to the transport. -/
  | freq0 (h : Half)
  /-- FREQ1, `10hhhhhhhhhhhhhh` (R65): hand a REG1 frequency half to the transport. -/
  | freq1 (h : Half)
  /-- PHASE0, `1100vvvvvvvvvvvv` (R66): hand a REG0 phase word to the transport. -/
  | phase0 (v : PhaseWord)
  /-- PHASE1, `1110vvvvvvvvvvvv` (R66): hand a REG1 phase word to the transport. -/
  | phase1 (v : PhaseWord)
  deriving DecidableEq, Repr

end Sys2Proof
end

