-- ==== Sys2Proof/Decode.lean ====
section
/-! DEFINITION. Decoding, total on every request triple and every u16 word, rejecting by name; then the
encoder, written from the same tables (R54, R56, R58 to R66). -/

namespace Sys2Proof

/-- A request as the host presents it (R53): the 4-bit selector and the two operand slots. A bit-field
operand is the non-negative integer it spells. -/
structure Request where
  opsel : BitVec 4
  a : Number
  b : Number
  deriving DecidableEq, Repr

/-- Why a request or a word spells no instruction. -/
inductive DecodeError where
  /-- The operand is no value of the bit field its slot takes: it "cannot be presented" (R56). -/
  | unpresentable (p : Position)
  /-- The word is of no row of the opcode table: a control word with D13 = 0 other than the reset-only
  word, or a word with a bit set that R64 leaves unnamed. -/
  | noRow (w : Word)
  /-- Not two bytes: "there is no misaligned or partial-word emission" (R44). -/
  | notOneWord
  deriving DecidableEq, Repr

/-! ## Operand codes -/

/-- A bit-field operand of `n` bits, used unchanged (R57): "values ≥ 2^n cannot be presented" (R56). -/
def presentField (p : Position) (n : Nat) : Number → Except DecodeError (BitVec n)
  | .rat q =>
    if q.den = 1 ∧ 0 ≤ q.num ∧ q.num.toNat < 2 ^ n then .ok (BitVec.ofNat n q.num.toNat)
    else .error (.unpresentable p)
  | .nan => .error (.unpresentable p)
  | .inf _ => .error (.unpresentable p)

/-- The operand that spells a bit field. -/
def Number.ofField {n : Nat} (v : BitVec n) : Number := .rat (v.toNat : Rat)

/-- Slot codes (R58). -/
def SlotCode.code : SlotCode → BitVec 2
  | .reg0 => 0
  | .reg1 => 1
  | .same => 2
  | .illegal => 3

/-- The slot a 2-bit code names (R58). -/
def SlotCode.ofCode (c : BitVec 2) : SlotCode :=
  if c = 0 then .reg0 else if c = 1 then .reg1 else if c = 2 then .same else .illegal

/-- Waveform codes (R59). -/
def Waveform.code : Waveform → BitVec 2
  | .sine => 0
  | .triangle => 1
  | .square => 2
  | .halfSquare => 3

/-- The waveform a 2-bit code names (R59: all four codes are legal). -/
def Waveform.ofCode (c : BitVec 2) : Waveform :=
  if c = 0 then .sine else if c = 1 then .triangle else if c = 2 then .square else .halfSquare

/-- The one-bit code of a register in the civ and in a control word (R60, R63): 0 = REG0, 1 = REG1. -/
def Reg.isReg1 : Reg → Bool
  | .reg0 => false
  | .reg1 => true

/-- The register a one-bit code names (R60). -/
def Reg.ofBit : Bool → Reg
  | false => .reg0
  | true => .reg1

/-- `pack(ds)` (R60): bit 0 fsel, bit 1 psel, 3:2 wave[REG0], 5:4 wave[REG1], 6 outEn, 7 sleep. -/
def packCiv (ds : DeviceState) : Civ :=
  (BitVec.ofBool ds.fsel.isReg1).zeroExtend 8
    ||| ((BitVec.ofBool ds.psel.isReg1).zeroExtend 8 <<< 1)
    ||| (ds.wave.reg0.code.zeroExtend 8 <<< 2)
    ||| (ds.wave.reg1.code.zeroExtend 8 <<< 4)
    ||| ((BitVec.ofBool ds.outEn).zeroExtend 8 <<< 6)
    ||| ((BitVec.ofBool ds.sleep).zeroExtend 8 <<< 7)

/-- Field `fsel` of a civ (R60, bit 0). -/
def civFsel (c : Civ) : Reg := Reg.ofBit (c.getLsbD 0)

/-- Field `psel` of a civ (R60, bit 1). -/
def civPsel (c : Civ) : Reg := Reg.ofBit (c.getLsbD 1)

/-- Fields `wave[REG0]` and `wave[REG1]` of a civ (R60, bits 3:2 and 5:4). -/
def civWave (c : Civ) : Reg → Waveform
  | .reg0 => Waveform.ofCode (c.extractLsb' 2 2)
  | .reg1 => Waveform.ofCode (c.extractLsb' 4 2)

/-- Field `outEn` of a civ (R60, bit 6). -/
def civOutEn (c : Civ) : Bool := c.getLsbD 6

/-- Field `sleep` of a civ (R60, bit 7). -/
def civSleep (c : Civ) : Bool := c.getLsbD 7

/-! ## Decoding -/

/-- How many operand slots an OPSEL uses (R54): the others are ignored (R53), and an illegal selector
faults "before reading any operand" (R143). -/
def opselArity (o : BitVec 4) : Nat :=
  match o.toNat with
  | 1 => 1
  | 2 => 1
  | 3 => 1
  | 4 => 1
  | 6 => 1
  | 7 => 1
  | 8 => 2
  | 9 => 2
  | 10 => 1
  | 11 => 2
  | _ => 0

/-- The operation-selector map (R54): OPSEL alone selects. The last arm is 0xF. -/
def decodeRequest (r : Request) : Except DecodeError Instr :=
  match r.opsel.toNat with
  | 0 => .ok .illegal0
  | 1 => .ok (.fclamp r.a)
  | 2 => .ok (.ftw r.a)
  | 3 => (presentField .a 28 r.a).map .w2f
  | 4 => (presentField .a 28 r.a).map .split
  | 5 => .ok .res
  | 6 => .ok (.pnorm r.a)
  | 7 => .ok (.phw r.a)
  | 8 => (presentField .a 2 r.a).bind fun s =>
      (presentField .b 14 r.b).map fun h => .tagf (SlotCode.ofCode s) h
  | 9 => (presentField .a 2 r.a).bind fun s =>
      (presentField .b 12 r.b).map fun v => .tagp (SlotCode.ofCode s) v
  | 10 => (presentField .a 8 r.a).map .ccw
  | 11 => (presentField .a 2 r.a).bind fun fs =>
      (presentField .b 2 r.b).map fun ps => .resolve (SlotCode.ofCode fs) (SlotCode.ofCode ps)
  | 12 => .ok .rstw
  | 13 => .ok .illegalD
  | 14 => .ok .illegalE
  | _ => .ok .illegalF

/-- Header decode, total over every u16 word (R62). -/
def headerClass (w : Word) : WordClass :=
  if w.extractLsb' 14 2 = 0 then .control
  else if w.extractLsb' 14 2 = 1 then .freq .reg0
  else if w.extractLsb' 14 2 = 2 then .freq .reg1
  else .phase

/-- The bits R64 leaves unnamed in a control word: D12, D9, D4, D2, D0. -/
def reservedControlBits : Word := 0x1215

/-- The named bits of a control word (R63). -/
def ctrlBits (w : Word) : CtrlBits where
  fsel := w.getLsbD 11
  psel := w.getLsbD 10
  reset := w.getLsbD 8
  sleep1 := w.getLsbD 7
  sleep12 := w.getLsbD 6
  opbiten := w.getLsbD 5
  div2 := w.getLsbD 3
  mode := w.getLsbD 1

/-- What a u16 word says by R62, R63 and R66, or that it has an unnamed bit set (R64). -/
inductive WordReading where
  | control (b28 : Bool) (b : CtrlBits)
  | freq (r : Reg) (h : Half)
  | phase (r : Reg) (v : PhaseWord)
  | unnamed
  deriving DecidableEq, Repr

/-- Read a word by its header (R62) and the fields of its class (R63, R65, R66). -/
def readWord (w : Word) : WordReading :=
  match headerClass w with
  | .control =>
    if w &&& reservedControlBits = 0 then .control (w.getLsbD 13) (ctrlBits w) else .unnamed
  | .freq r => .freq r (w.extractLsb' 0 14)
  | .phase =>
    if w.getLsbD 12 then .unnamed
    else .phase (Reg.ofBit (w.getLsbD 13)) (w.extractLsb' 0 12)

/-- The output-word rows of the opcode table. -/
def decodeWord (w : Word) : Except DecodeError Instr :=
  match readWord w with
  | .control true b => .ok (.ctrl b)
  | .control false _ => if w = 0x0100 then .ok .rstWord else .error (.noRow w)
  | .freq .reg0 h => .ok (.freq0 h)
  | .freq .reg1 h => .ok (.freq1 h)
  | .phase .reg0 v => .ok (.phase0 v)
  | .phase .reg1 v => .ok (.phase1 v)
  | .unnamed => .error (.noRow w)

/-! ## Bytes on the wire -/

/-- `bytes(w) = [w[15:8], w[7:0]]`, first element first (R42). -/
def wordBytes (w : Word) : List Byte := [w.extractLsb' 8 8, w.extractLsb' 0 8]

/-- The word two bytes of the wire spell (R42). -/
def wordOfBytes (hi lo : Byte) : Word := (hi.zeroExtend 16 <<< 8) ||| lo.zeroExtend 16

/-- Decode the bytes of one word; there is no partial-word emission (R44, R45). -/
def decodeBytes : List Byte → Except DecodeError Instr
  | [hi, lo] => decodeWord (wordOfBytes hi lo)
  | [] => .error .notOneWord
  | [_] => .error .notOneWord
  | _ :: _ :: _ :: _ => .error .notOneWord

/-- The bits of a byte in the order a serial line carries them (R43). -/
def byteSerial (o : BitOrder) (b : Byte) : List Bool :=
  match o with
  | .msbFirst => (List.range 8).map fun i => b.getLsbD (7 - i)
  | .lsbFirst => (List.range 8).map fun i => b.getLsbD i

/-- The bits of a word on the serial line: its bytes in order (R42), each in the given bit order (R43). -/
def wordSerial (o : BitOrder) (w : Word) : List Bool := (wordBytes w).flatMap (byteSerial o)

/-! ## Encoding -/

/-- One bit of a word at position `n`. -/
def bitAt (n : Nat) (b : Bool) : Word := (BitVec.ofBool b).zeroExtend 16 <<< n

/-- A control word from its D13 and its named bits (R63), unnamed bits 0 (R64). -/
def controlWord (b28 : Bool) (b : CtrlBits) : Word :=
  bitAt 13 b28 ||| bitAt 11 b.fsel ||| bitAt 10 b.psel ||| bitAt 8 b.reset ||| bitAt 7 b.sleep1
    ||| bitAt 6 b.sleep12 ||| bitAt 5 b.opbiten ||| bitAt 3 b.div2 ||| bitAt 1 b.mode

/-- `header(s)` of a frequency data word (R65). -/
def freqHeader : Reg → Word
  | .reg0 => 0x4000
  | .reg1 => 0x8000

/-- A frequency data word: `header(s) | zext_16(h)` (R65). -/
def freqWord (r : Reg) (h : Half) : Word := freqHeader r ||| h.zeroExtend 16

/-- A phase data word: `0xC000 | (s = REG1 ? 0x2000 : 0) | zext_16(v)` (R66). -/
def phaseDataWord (r : Reg) (v : PhaseWord) : Word :=
  0xC000 ||| (match r with | .reg0 => 0 | .reg1 => 0x2000) ||| v.zeroExtend 16

/-- The reset-only word (R110): D8 set, every other bit 0. -/
def resetOnlyWord : Word := 0x0100

/-- What an instruction is spelled as: a request triple, or a 16-bit word. -/
inductive Encoded where
  | request (r : Request)
  | word (w : Word)
  deriving DecidableEq, Repr

/-- Decode either kind of spelling. -/
def decode : Encoded → Except DecodeError Instr
  | .request r => decodeRequest r
  | .word w => decodeWord w

/-- A request with unused slots 0. -/
def mkRequest (o : BitVec 4) (a b : Number) : Encoded := .request ⟨o, a, b⟩

/-- The spelling of an instruction (R54, R58, R62 to R66); an unused operand slot is 0. -/
def encode : Instr → Encoded
  | .fclamp f => mkRequest 0x1 f (.rat 0)
  | .ftw f => mkRequest 0x2 f (.rat 0)
  | .w2f w => mkRequest 0x3 (.ofField w) (.rat 0)
  | .split w => mkRequest 0x4 (.ofField w) (.rat 0)
  | .res => mkRequest 0x5 (.rat 0) (.rat 0)
  | .pnorm p => mkRequest 0x6 p (.rat 0)
  | .phw p => mkRequest 0x7 p (.rat 0)
  | .tagf s h => mkRequest 0x8 (.ofField s.code) (.ofField h)
  | .tagp s v => mkRequest 0x9 (.ofField s.code) (.ofField v)
  | .ccw c => mkRequest 0xA (.ofField c) (.rat 0)
  | .resolve fs ps => mkRequest 0xB (.ofField fs.code) (.ofField ps.code)
  | .rstw => mkRequest 0xC (.rat 0) (.rat 0)
  | .illegal0 => mkRequest 0x0 (.rat 0) (.rat 0)
  | .illegalD => mkRequest 0xD (.rat 0) (.rat 0)
  | .illegalE => mkRequest 0xE (.rat 0) (.rat 0)
  | .illegalF => mkRequest 0xF (.rat 0) (.rat 0)
  | .ctrl b => .word (controlWord true b)
  | .rstWord => .word resetOnlyWord
  | .freq0 h => .word (freqWord .reg0 h)
  | .freq1 h => .word (freqWord .reg1 h)
  | .phase0 v => .word (phaseDataWord .reg0 v)
  | .phase1 v => .word (phaseDataWord .reg1 v)

/-! ## Host operations -/

/-- The operands of a Write Sequencer operation at their types (R70). A waveform is its 2-bit code
(R59) and a switch one bit. -/
def decodeOp (k : OpKind) (a b : Number) : Except DecodeError HostOp :=
  match k with
  | .setFreq => (presentField .a 2 a).map fun s => .setFreq (SlotCode.ofCode s) b
  | .incFreq => (presentField .a 2 a).map fun s => .incFreq (SlotCode.ofCode s) b
  | .setPhase => (presentField .a 2 a).map fun s => .setPhase (SlotCode.ofCode s) b
  | .incPhase => (presentField .a 2 a).map fun s => .incPhase (SlotCode.ofCode s) b
  | .setWave => (presentField .a 2 a).bind fun s =>
      (presentField .b 2 b).map fun wf => .setWave (SlotCode.ofCode s) (Waveform.ofCode wf)
  | .enable => (presentField .a 1 a).map fun x => .enable (x.getLsbD 0)
  | .reset => .ok .reset
  | .sleep => (presentField .a 1 a).map fun x => .sleep (x.getLsbD 0)
  | .setSrc => (presentField .a 2 a).bind fun fs =>
      (presentField .b 2 b).map fun ps => .setSrc (SlotCode.ofCode fs) (SlotCode.ofCode ps)

/-- How many operand slots a Write Sequencer operation uses (R70). -/
def OpKind.arity : OpKind → Nat
  | .setFreq => 2
  | .incFreq => 2
  | .setPhase => 2
  | .incPhase => 2
  | .setWave => 2
  | .enable => 1
  | .reset => 0
  | .sleep => 1
  | .setSrc => 2

/-! ## The opcode table's numbering -/

/-- The instruction read from bits numbered as spec/opcode_table.json numbers them. A request row has
4 bits (one byte), OPSEL at bits 3..0, and operands of zeros; an output-word row has 16 bits, laid out
as the two bytes of R42. -/
def decodeTableWord (nbits w : Nat) : Option Instr :=
  if nbits ≤ 8 then (decodeRequest ⟨BitVec.ofNat 4 w, .rat 0, .rat 0⟩).toOption
  else (decodeBytes (wordBytes (BitVec.ofNat 16 w))).toOption

end Sys2Proof
end

