-- ==== Sys2Proof/Machine/Arith.lean ====
section
/-! DEFINITION. Exact arithmetic on ℚ (R10, R11) and the result functions of the codec, the tagging
operations and the composer: pure functions of their operands, `REF` and `SQUARE_D3_SWAP` (R23). -/

namespace Sys2Proof.Machine

/-! ## Primitives (R11) -/

/-- `round(x)`: to the nearest integer, ties away from zero (R11, decision D3). -/
def roundAway (x : Rat) : Int :=
  if 0 ≤ x then (x + 1 / 2).floor else -(-x + 1 / 2).floor

/-- `x mod m`: the floored modulo (R11). -/
def floorMod (x m : Rat) : Rat := x - m * ((x / m).floor : Rat)

/-! ## Codec (40_codec.md) -/

/-- FCLAMP (R81): `min(max(f, 1/10), 12500000)`. -/
def fclamp (f : Rat) : Rat := min (max f Config.fMin) Config.fMax

/-- The exact quotient `f * 2^28 / REF` of R82. -/
def ftwQuotient (ref f : Rat) : Rat := f * Config.ftwScale / ref

/-- FTW (R82): round, then mask to 28 bits (floored modulo 2^28). -/
def ftw (ref f : Rat) : Tuning := BitVec.ofInt 28 (roundAway (ftwQuotient ref f))

/-- W2F (R84): `w * REF / 2^28`, never rounded. -/
def w2f (ref : Rat) (w : Tuning) : Rat := (w.toNat : Rat) * ref / Config.ftwScale

/-- SPLIT (R86), `lo`: `w[13:0]`. -/
def splitLo (w : Tuning) : Half := w.extractLsb' 0 14

/-- SPLIT (R86), `up`: `w[27:14]`. -/
def splitUp (w : Tuning) : Half := w.extractLsb' 14 14

/-- Tuning-word reassembly (R67): `lower14 | (upper14 << 14)`. -/
def reassemble (lo up : Half) : Tuning := lo.zeroExtend 28 ||| (up.zeroExtend 28 <<< 14)

/-- RES (R88): `REF / 2^28`. -/
def resolution (ref : Rat) : Rat := ref / Config.ftwScale

/-- PNORM (R89): `p mod 360`. -/
def pnorm (p : Rat) : Rat := floorMod p Config.phaseTurn

/-- PHW (R90): `round(q * 4096 / 360) mod 4096` with `q = p mod 360`. -/
def phw (p : Rat) : PhaseWord :=
  BitVec.ofInt 12 (roundAway (pnorm p * Config.phaseSteps / Config.phaseTurn))

/-! ## Tagging (41_output_words.md) -/

/-- TAGF for a register (R97). -/
def tagf (r : Reg) (h : Half) : Word := freqWord r h

/-- TAGP for a register (R99). -/
def tagp (r : Reg) (v : PhaseWord) : Word := phaseDataWord r v

/-! ## Composer (42_composer.md) -/

/-- Base patterns (R105); `swap` is `SQUARE_D3_SWAP`. -/
def basePattern (swap : Bool) : Waveform → Word
  | .sine => 0x2000
  | .triangle => 0x2002
  | .square => if swap then 0x2028 else 0x2020
  | .halfSquare => if swap then 0x2020 else 0x2028

/-- `w[n] <- b` (R9). -/
def writeBit (w : Word) (n : Nat) (b : Bool) : Word := (w &&& ~~~(bitAt n true)) ||| bitAt n b

/-- CCW (R104), in the source's step order. -/
def ccw (swap : Bool) (c : Civ) : Word :=
  let w := basePattern swap (civWave c (civFsel c))
  let w := writeBit w 11 (civFsel c).isReg1
  let w := writeBit w 10 (civPsel c).isReg1
  let w := writeBit w 8 (!civOutEn c)
  let w := writeBit w 7 (civSleep c)
  writeBit w 6 (civSleep c)

/-- RESOLVE with legal operands (R109): SAME names the frequency slot. `none` for the illegal code. -/
def resolveSlot (fs : Reg) : SlotCode → Option Reg
  | .reg0 => some .reg0
  | .reg1 => some .reg1
  | .same => some fs
  | .illegal => none

/-- RSTW (R110). -/
def rstw : Word := resetOnlyWord

end Sys2Proof.Machine
end

