-- ==== Sys2Proof/Machine/State.lean ====
section
/-! DEFINITION. The machine's state as plain data: the block's registers (R21, R22), the Device State the
host holds (R27), the chip state the spec names (R34), the ordered words (R136), and the host's pending
program (R16). -/

namespace Sys2Proof.Machine

/-- `FAULT.code` (R140). -/
inductive FaultCode where
  | none
  | badReference
  | illegalOpsel
  | illegalSlot
  | nonfiniteInput
  deriving DecidableEq, Repr, Inhabited

/-- `FAULT.info` (R140): the value recorded with each code. -/
inductive FaultInfo where
  | none
  | reference (ref : Rat)
  | opsel (o : BitVec 4)
  | slot (p : Position) (code : SlotCode)
  | operand (p : Position)
  deriving DecidableEq, Repr, Inhabited

/-- The status register `FAULT` (R22). -/
structure FaultReg where
  code : FaultCode
  info : FaultInfo
  deriving DecidableEq, Repr, Inhabited

/-- The result an operation delivers to the host (R54, column "result"). -/
inductive Result where
  | hz (q : Rat)
  | tuning (w : Tuning)
  | halves (lo up : Half)
  | degrees (q : Rat)
  | phase (v : PhaseWord)
  | word (w : Word)
  | slot (r : Reg)
  deriving DecidableEq, Repr

/-- Which half of a 28-bit word the chip expects next (R34), as far as R131, R164 and I12 state it. -/
inductive Expects where
  /-- Between frequency updates: a control word or a phase word is expected (R164). -/
  | idle
  /-- After a control word with D13 = 1: the next frequency write is a lower half (R131). -/
  | lower
  /-- After the lower half `lo` for register `r`: the upper half is next (R131). -/
  | upper (r : Reg) (lo : Half)
  /-- After words out of contract order: the spec states nothing of what follows (I12). -/
  | broken
  deriving DecidableEq, Repr, Inhabited

/-- The downstream chip's state (R34). -/
structure Chip where
  freq    : Pair Tuning
  phase   : Pair PhaseWord
  control : Word
  /-- The chip sleeps: from a control word with D7 to one with D7 = D6 = 0 (R63, R155). -/
  sleeping : Bool
  expects : Expects
  last    : WordClass
  deriving DecidableEq, Repr

/-- The whole state. -/
structure State where
  /-- Configuration register `REF`, in hertz (R21). -/
  ref : Rat
  /-- Parameter `SQUARE_D3_SWAP`, fixed at construction (R8, R51, R105). -/
  squareD3Swap : Bool
  /-- The chip-select designator `cs`, opaque to the core and fixed at construction (R120). -/
  chipSelect : Nat
  /-- Status register `FAULT` (R22). -/
  fault : FaultReg
  /-- The Device State (R27). -/
  ds : DeviceState
  /-- The words handed to the transport, in emission order (R136). -/
  emitted : List Word
  /-- The chip behind the transport (R34). -/
  chip : Chip
  /-- Every result the block has delivered, in order (R12, R53). The model's own record. -/
  results : List Result
  /-- The host's bound names (R69), newest first. -/
  names : List (Name × Number)
  /-- The host's pending program, in program order (R16, R48). -/
  program : List Stmt
  /-- How many words the chip has taken: the argument of the chip's free values. The model's own. -/
  draws : Nat
  deriving DecidableEq, Repr

/-- Why the machine stops with a fault. -/
inductive Fault where
  /-- `FAULT.code ≠ 0`: "no request and no host operation has a step" (R142). Raised by `step` and by
  every meaning before anything else. Safe: the spec gives no further behaviour. -/
  | faulted
  deriving DecidableEq, Repr

/-- Why a statement has no meaning. -/
inductive Refusal where
  /-- An instruction not modelled yet. Raised by an arm of `exec` alone; no arm raises it. Safe. -/
  | notModelled (mnemonic : String)
  /-- The statement's operand is no value of its bit field, so it "cannot be presented" (R56). Raised by
  `step` when decoding a statement, never by `exec`. Safe. -/
  | unpresentable (p : Position)
  /-- The statement names no earlier `->` (R69). Raised by `step`, never by `exec`. Safe. -/
  | unboundName (x : Name)
  deriving DecidableEq, Repr

/-- The construction defaults of the Device State (R33). -/
def deviceDefaults : DeviceState where
  freq := ⟨1000, 1000⟩
  phase := ⟨0, 0⟩
  wave := ⟨.sine, .sine⟩
  outEn := false
  sleep := false
  fsel := .reg0
  psel := .reg0

/-- The chip before any word (R34, R35): its registers hold free values, and it expects no second half
(R164). -/
def chipUnknown : Chip where
  freq := Config.chipFreqAtReset
  phase := Config.chipPhaseAtReset
  control := Config.chipControlAtReset
  sleeping := Config.chipSleepingAtReset
  expects := .idle
  last := Config.chipLastAtReset

/-- The machine right after its reset, which is its construction with the default arguments (R35, R120,
R156): no word emitted (R158), nothing bound, no program. -/
def State.reset : State where
  ref := Config.refDefault
  squareD3Swap := false
  chipSelect := 0
  fault := ⟨.none, .none⟩
  ds := deviceDefaults
  emitted := []
  chip := chipUnknown
  results := []
  names := []
  program := []
  draws := 0

end Sys2Proof.Machine
end

