-- ==== Sys2Proof/Machine/Flags.lean ====
section
/-! DEFINITION. The status of the machine. The block has no flags or condition codes (R25): the only
status is the `FAULT` register (R22), and the control word's bits as the chip holds them (R111). -/

namespace Sys2Proof.Machine

/-- The number of a fault code (R140). -/
def FaultCode.number : FaultCode → Nat
  | .none => 0
  | .badReference => 1
  | .illegalOpsel => 2
  | .illegalSlot => 3
  | .nonfiniteInput => 4

/-- No fault is recorded, so the machine may take a step (R142). -/
def State.ready (s : State) : Bool := s.fault.code == .none

/-- The chip is "held in reset, output at midscale": D8 of its control register (R111). -/
def Chip.inReset (c : Chip) : Bool := c.control.getLsbD 8

/-- The chip's "internal clock" is disabled: D7 (R63, R111). -/
def Chip.clockOff (c : Chip) : Bool := c.control.getLsbD 7

/-- The chip's DAC is disabled: D6 (R63, R111). -/
def Chip.dacOff (c : Chip) : Bool := c.control.getLsbD 6

/-- A control word that puts the chip to sleep: D7, "internal clock disabled (sleep)" (R63, R155). D6 alone
is "DAC disabled" and no sleep. (Log entry 27.) -/
def sleepWord (w : Word) : Bool := w.getLsbD 7

/-- A control word that wakes the chip: D7 = D6 = 0 (R155). -/
def wakeWord (w : Word) : Bool := !w.getLsbD 7 && !w.getLsbD 6

end Sys2Proof.Machine
end

