-- ==== Sys2Proof/Machine/Chip.lean ====
section
/-! DEFINITION. The chip's taking of one word, as far as the spec states it (R34, R111, R131, R155) and no
further: everything it leaves open is a free value (I8, I11, I12, I17). `n` numbers the occasion. -/

namespace Sys2Proof

/-- The entry of a pair for a register (R27). -/
def Pair.get {α : Type} (p : Pair α) : Reg → α
  | .reg0 => p.reg0
  | .reg1 => p.reg1

/-- A pair with one entry replaced. -/
def Pair.set {α : Type} (p : Pair α) (r : Reg) (x : α) : Pair α :=
  match r with
  | .reg0 => ⟨x, p.reg1⟩
  | .reg1 => ⟨p.reg0, x⟩

namespace Machine

/-- The chip has taken the first of two halves (I12). -/
def Expects.betweenHalves : Expects → Bool
  | .idle => false
  | .lower => false
  | .upper _ _ => true
  | .broken => false

/-- The chip's taking of the word ends a sleep (R155, I17). -/
def Chip.wakes (w : Word) (c : Chip) : Bool := c.sleeping && wakeWord w

/-- A control word: a control-type write that "never perturbs frequency or phase registers" (R111), and
whose repetition changes nothing (R47). With D13 it primes the chip for two frequency writes (R121, R131).
One that comes between two halves leaves the pairing and the frequency registers open (I12, log entry 15),
and one that ends a sleep leaves the frequency and phase registers open (R155, I17, log entry 12). A word
that begins a sleep, or comes during one and does not end it, leaves them as an awake chip's (the model's
choice, log entry 36). -/
def Chip.takeControl (n : Nat) (w : Word) (b28 : Bool) (c : Chip) : Chip where
  freq := if c.wakes w || c.expects.betweenHalves then Config.freeChipFreq n else c.freq
  phase := if c.wakes w then Config.freeChipPhase n else c.phase
  control := w
  sleeping := sleepWord w || (c.sleeping && !wakeWord w)
  expects :=
    match c.expects with
    | .idle => if b28 then .lower else .idle
    | .lower => if b28 then .lower else .idle
    | .upper _ _ => .broken
    | .broken => .broken
  last := .control

/-- A frequency half (R131): the first of two after a control word is the lower half, the second the
upper. Between the two the register is open; out of that order both registers are (I12). Until the waking
word a sleeping chip takes a half as an awake one does: the spec does not say (R155), and this is the
model's choice (log entry 36). -/
def Chip.takeFreq (n : Nat) (r : Reg) (h : Half) (c : Chip) : Chip :=
  match c.expects with
  | .lower =>
    { c with freq := c.freq.set r ((Config.freeChipFreq n).get r), expects := .upper r h, last := .freq r }
  | .upper r' lo =>
    if r = r' then { c with freq := c.freq.set r (reassemble lo h), expects := .idle, last := .freq r }
    else { c with freq := Config.freeChipFreq n, expects := .broken, last := .freq r }
  | .idle => { c with freq := Config.freeChipFreq n, expects := .broken, last := .freq r }
  | .broken => { c with freq := Config.freeChipFreq n, expects := .broken, last := .freq r }

/-- A phase word, which a chip in order expects beside a control word (R164), writes the phase register its
slot bit names: it is single-word and needs no priming (R47, R62, R123). It ends the priming of a control
word. Between two halves and in broken order no sentence of the spec gives the chip's registers a content
(R34), so all of them are open (I12, log entry 18). Until the waking word a sleeping chip takes a phase word
as an awake one does: the spec does not say (R155), and this is the model's choice (log entry 36). -/
def Chip.takePhase (n : Nat) (r : Reg) (v : PhaseWord) (c : Chip) : Chip :=
  match c.expects with
  | .idle => { c with phase := c.phase.set r v, last := .phase }
  | .lower => { c with phase := c.phase.set r v, expects := .idle, last := .phase }
  | .upper _ _ =>
    { c with phase := Config.freeChipPhase n, freq := Config.freeChipFreq n, expects := .broken,
             last := .phase }
  | .broken =>
    { c with phase := Config.freeChipPhase n, freq := Config.freeChipFreq n, last := .phase }

/-- A word with an unnamed bit set has no meaning at the chip (R64, I8): everything is open after it. -/
def Chip.takeUnnamed (n : Nat) (w : Word) (_ : Chip) : Chip where
  freq := Config.freeChipFreq n
  phase := Config.freeChipPhase n
  control := Config.freeChipControl n
  sleeping := Config.freeChipSleeping n
  expects := .broken
  last := headerClass w

/-- The chip takes one word, told apart by its header (R62). -/
def Chip.take (n : Nat) (w : Word) (c : Chip) : Chip :=
  match readWord w with
  | .control b28 _ => c.takeControl n w b28
  | .freq r h => c.takeFreq n r h
  | .phase r v => c.takePhase n r v
  | .unnamed => c.takeUnnamed n w

end Machine

end Sys2Proof
end

