-- ==== Sys2Proof/Machine/Ops.lean ====
section
/-! DEFINITION. The shared operations over the state: the step guard and `raise` (R142), `result <- v`
(R12), `emit(w)` (R119), the Device State updates (R27), construction (R120) and the host's names (R69). -/

namespace Sys2Proof.Machine

/-- The outcome of a step. -/
abbrev Out := Host.Outcome State Fault Refusal

/-- "While `FAULT.code ≠ 0` no request and no host operation has a step" (R142). -/
def whenReady (s : State) (k : Out) : Out := if s.ready then k else .fault .faulted

/-- `raise F(info)` (R142): records the code and the information, delivers no result, emits no word and
changes no other state. -/
def raise (code : FaultCode) (info : FaultInfo) (s : State) : Out :=
  .next { s with fault := ⟨code, info⟩ }

/-- `result <- v` (R12): deliver a result to the host. -/
def State.deliver (v : Result) (s : State) : State := { s with results := s.results ++ [v] }

/-- Deliver the results of several requests, in order. -/
def State.deliverAll (vs : List Result) (s : State) : State := vs.foldl (fun s v => s.deliver v) s

/-- `emit(w)` (R119): append to the emitted words and hand the word to the transport, which completes
(R152), so that the chip takes it. -/
def State.transmit (w : Word) (s : State) : State :=
  { s with emitted := s.emitted ++ [w], chip := s.chip.take s.draws w, draws := s.draws + 1 }

/-- Several words, consecutively and in the order written (R48, R119). -/
def State.transmitAll (ws : List Word) (s : State) : State := ws.foldl (fun s w => s.transmit w) s

/-- `ds.freq[r] <- f` (R27). -/
def State.setFreq (r : Reg) (f : Rat) (s : State) : State :=
  { s with ds := { s.ds with freq := s.ds.freq.set r f } }

/-- `ds.phase[r] <- p` (R27). -/
def State.setPhase (r : Reg) (p : Rat) (s : State) : State :=
  { s with ds := { s.ds with phase := s.ds.phase.set r p } }

/-- `ds.wave[r] <- wf` (R27). -/
def State.setWave (r : Reg) (wf : Waveform) (s : State) : State :=
  { s with ds := { s.ds with wave := s.ds.wave.set r wf } }

/-- `ds.outEn <- b` (R27). -/
def State.setOutEn (b : Bool) (s : State) : State := { s with ds := { s.ds with outEn := b } }

/-- `ds.sleep <- b` (R27). -/
def State.setSleep (b : Bool) (s : State) : State := { s with ds := { s.ds with sleep := b } }

/-- `ds.fsel <- fs; ds.psel <- ps` (R27, R31). -/
def State.setSource (fs ps : Reg) (s : State) : State :=
  { s with ds := { s.ds with fsel := fs, psel := ps } }

/-- The live composition of the control word, `CCW(pack(ds))` (R104, R121). -/
def State.controlWord (s : State) : Word := ccw s.squareD3Swap (packCiv s.ds)

/-- The composed control word is requested and emitted: `c <- CCW(pack(ds)); emit(c)` (R125, R126). -/
def State.emitControl (s : State) : State :=
  (s.deliver (.word s.controlWord)).transmit s.controlWord

/-- Construction (R120), the block's reset (R156). A reference ≤ 0 is rejected (R141): `FAULT` is set,
`REF` is not, the Device State is not initialised, and no word is emitted. The reference is an exact
rational: the spec is silent on a NaN or an infinity presented at construction, and the model leaves such a
construction out (the model's choice, log entry 33). -/
def construct (cs : Nat) (ref : Rat) (swap : Bool) : State :=
  if 0 < ref then { State.reset with ref := ref, squareD3Swap := swap, chipSelect := cs }
  else
    { State.reset with
      ref := Config.unsetReference
      squareD3Swap := swap
      chipSelect := cs
      fault := ⟨.badReference, .reference ref⟩
      ds := Config.uninitialisedDevice }

/-! ## The host's names (R69) -/

/-- The values a result binds, in order: SPLIT binds two names, every other operation one. -/
def Result.values : Result → List Number
  | .hz q => [.rat q]
  | .tuning w => [.ofField w]
  | .halves lo up => [.ofField lo, .ofField up]
  | .degrees q => [.rat q]
  | .phase v => [.ofField v]
  | .word w => [.ofField w]
  | .slot r => [.ofField r.toSlot.code]

/-- `-> name, ...`: bind the names to the values of the results delivered since `before` results had
been. With no result (a fault) nothing is bound. A name bound again takes the newer value, and of one name
written twice after one arrow the first stands: after `SPLIT w -> x, x` an operand `x` is the lower half.
R69 is silent on both (the model's choice, log entry 11). -/
def State.bindNames (into : List Name) (before : Nat) (s : State) : State :=
  { s with names := into.zip ((s.results.drop before).flatMap Result.values) ++ s.names }

/-- The value of an operand, if it is a literal or a bound name. -/
def State.value? (s : State) : Arg → Option Number
  | .lit n => some n
  | .name x => s.names.lookup x

end Sys2Proof.Machine
end

