-- ==== Sys2Proof/Machine/Operands.lean ====
section
/-! DEFINITION. The operand checks of R144 and R145. A meaning makes them in operand order, A before B
(R146). -/

namespace Sys2Proof.Machine

/-- A numeric operand at position `p`: a non-finite one raises NONFINITE_INPUT (R145). -/
def withNumber (p : Position) (x : Number) (s : State) (k : Rat → Out) : Out :=
  match x with
  | .rat q => k q
  | .nan => raise .nonfiniteInput (.operand p) s
  | .inf _ => raise .nonfiniteInput (.operand p) s

/-- A slot operand that must be a register: SAME and the code 3 raise ILLEGAL_SLOT (R58, R144). -/
def withRegister (p : Position) (x : SlotCode) (s : State) (k : Reg → Out) : Out :=
  match x with
  | .reg0 => k .reg0
  | .reg1 => k .reg1
  | .same => raise .illegalSlot (.slot p .same) s
  | .illegal => raise .illegalSlot (.slot p .illegal) s

/-- RESOLVE's operand B: the code 3 raises ILLEGAL_SLOT, and SAME names the register `fs` (R109, R144). -/
def withPhaseSelector (p : Position) (x : SlotCode) (fs : Reg) (s : State) (k : Reg → Out) : Out :=
  match resolveSlot fs x with
  | some q => k q
  | none => raise .illegalSlot (.slot p x) s

/-- The exact sum of a stored value and a numeric operand (R122, R124): a non-finite operand gives a
non-finite sum. -/
def addTo (q : Rat) : Number → Number
  | .rat d => .rat (q + d)
  | .nan => .nan
  | .inf neg => .inf neg

end Sys2Proof.Machine
end

