-- ==== Sys2Proof/Machine/Codec.lean ====
section
/-! DEFINITION. The meanings of the codec requests (40_codec.md): each delivers its result and writes
nothing else (R23, R80). -/

namespace Sys2Proof.Machine

/-- FCLAMP (R81). -/
def execFclamp (f : Number) (s : State) : Out :=
  whenReady s (withNumber .a f s fun q => .next (s.deliver (.hz (fclamp q))))

/-- FTW (R82): it does not clamp (decision D28). -/
def execFtw (f : Number) (s : State) : Out :=
  whenReady s (withNumber .a f s fun q => .next (s.deliver (.tuning (ftw s.ref q))))

/-- W2F (R84). -/
def execW2f (w : Tuning) (s : State) : Out :=
  whenReady s (.next (s.deliver (.hz (w2f s.ref w))))

/-- SPLIT (R86). -/
def execSplit (w : Tuning) (s : State) : Out :=
  whenReady s (.next (s.deliver (.halves (splitLo w) (splitUp w))))

/-- RES (R88). -/
def execRes (s : State) : Out :=
  whenReady s (.next (s.deliver (.hz (resolution s.ref))))

/-- PNORM (R89). -/
def execPnorm (p : Number) (s : State) : Out :=
  whenReady s (withNumber .a p s fun q => .next (s.deliver (.degrees (pnorm q))))

/-- PHW (R90). -/
def execPhw (p : Number) (s : State) : Out :=
  whenReady s (withNumber .a p s fun q => .next (s.deliver (.phase (phw q))))

end Sys2Proof.Machine
end

