-- ==== Sys2Proof/Machine/Composer.lean ====
section
/-! DEFINITION. The meanings of the composer requests (42_composer.md). -/

namespace Sys2Proof.Machine

/-- CCW (R104): every u8 is a legal civ. -/
def execCcw (c : Civ) (s : State) : Out :=
  whenReady s (.next (s.deliver (.word (ccw s.squareD3Swap c))))

/-- RESOLVE (R109): the `fs` check is made first (R146). -/
def execResolve (fs ps : SlotCode) (s : State) : Out :=
  whenReady s (withRegister .a fs s fun r =>
    withPhaseSelector .b ps r s fun q => .next (s.deliver (.slot q)))

/-- RSTW (R110): reads no state. -/
def execRstw (s : State) : Out :=
  whenReady s (.next (s.deliver (.word rstw)))

end Sys2Proof.Machine
end

