-- ==== Sys2Proof/Machine/Illegal.lean ====
section
/-! DEFINITION. The meanings of the illegal selectors (R55, R143): each raises ILLEGAL_OPSEL with its
selector, "before reading any operand". -/

namespace Sys2Proof.Machine

/-- OPSEL 0x0 (R143). -/
def execIllegal0 (s : State) : Out := whenReady s (raise .illegalOpsel (.opsel 0x0) s)

/-- OPSEL 0xD (R143). -/
def execIllegalD (s : State) : Out := whenReady s (raise .illegalOpsel (.opsel 0xD) s)

/-- OPSEL 0xE (R143). -/
def execIllegalE (s : State) : Out := whenReady s (raise .illegalOpsel (.opsel 0xE) s)

/-- OPSEL 0xF (R143). -/
def execIllegalF (s : State) : Out := whenReady s (raise .illegalOpsel (.opsel 0xF) s)

end Sys2Proof.Machine
end

