-- ==== Sys2Proof/Machine/OutputWords.lean ====
section
/-! DEFINITION. The meanings of the output-word rows: the host hands the word to the transport (`EMIT`,
R69, R119). -/

namespace Sys2Proof.Machine

/-- CTRL: a control word with D13 = 1 (R63). -/
def execCtrl (b : CtrlBits) (s : State) : Out := whenReady s (.next (s.transmit (controlWord true b)))

/-- RSTWORD: the reset-only word (R110). -/
def execRstWord (s : State) : Out := whenReady s (.next (s.transmit resetOnlyWord))

/-- FREQ0: a REG0 frequency half (R65). -/
def execFreq0 (h : Half) (s : State) : Out := whenReady s (.next (s.transmit (freqWord .reg0 h)))

/-- FREQ1: a REG1 frequency half (R65). -/
def execFreq1 (h : Half) (s : State) : Out := whenReady s (.next (s.transmit (freqWord .reg1 h)))

/-- PHASE0: a REG0 phase word (R66). -/
def execPhase0 (v : PhaseWord) (s : State) : Out := whenReady s (.next (s.transmit (phaseDataWord .reg0 v)))

/-- PHASE1: a REG1 phase word (R66). -/
def execPhase1 (v : PhaseWord) (s : State) : Out := whenReady s (.next (s.transmit (phaseDataWord .reg1 v)))

/-- `EMIT x` of a word of no table row: it is emitted all the same (R119), and the chip takes it as R62
and R64 let it. -/
def execOtherWord (w : Word) (s : State) : Out := whenReady s (.next (s.transmit w))

end Sys2Proof.Machine
end

