-- ==== Sys2Proof/Machine/Tagging.lean ====
section
/-! DEFINITION. The meanings of the tagging requests (41_output_words.md). -/

namespace Sys2Proof.Machine

/-- TAGF (R97). -/
def execTagf (x : SlotCode) (h : Half) (s : State) : Out :=
  whenReady s (withRegister .a x s fun r => .next (s.deliver (.word (tagf r h))))

/-- TAGP (R99). -/
def execTagp (x : SlotCode) (v : PhaseWord) (s : State) : Out :=
  whenReady s (withRegister .a x s fun r => .next (s.deliver (.word (tagp r v))))

end Sys2Proof.Machine
end

