-- ==== Sys2Proof/Machine/Dispatch.lean ====
section
/-! DEFINITION. One arm per row of the opcode table, each one call of its meaning. -/

namespace Sys2Proof.Machine

def exec (i : Instr) (s : State) : Host.Outcome State Fault Refusal :=
  match i with
  -- codec
  | .fclamp f => Sys2Proof.Machine.execFclamp f s
  | .ftw f => Sys2Proof.Machine.execFtw f s
  | .w2f w => Sys2Proof.Machine.execW2f w s
  | .split w => Sys2Proof.Machine.execSplit w s
  | .res => Sys2Proof.Machine.execRes s
  | .pnorm p => Sys2Proof.Machine.execPnorm p s
  | .phw p => Sys2Proof.Machine.execPhw p s
  -- tagging
  | .tagf x h => Sys2Proof.Machine.execTagf x h s
  | .tagp x v => Sys2Proof.Machine.execTagp x v s
  -- composer
  | .ccw c => Sys2Proof.Machine.execCcw c s
  | .resolve fs ps => Sys2Proof.Machine.execResolve fs ps s
  | .rstw => Sys2Proof.Machine.execRstw s
  -- illegal selectors
  | .illegal0 => Sys2Proof.Machine.execIllegal0 s
  | .illegalD => Sys2Proof.Machine.execIllegalD s
  | .illegalE => Sys2Proof.Machine.execIllegalE s
  | .illegalF => Sys2Proof.Machine.execIllegalF s
  -- output words
  | .ctrl b => Sys2Proof.Machine.execCtrl b s
  | .rstWord => Sys2Proof.Machine.execRstWord s
  | .freq0 h => Sys2Proof.Machine.execFreq0 h s
  | .freq1 h => Sys2Proof.Machine.execFreq1 h s
  | .phase0 v => Sys2Proof.Machine.execPhase0 v s
  | .phase1 v => Sys2Proof.Machine.execPhase1 v s

end Sys2Proof.Machine
end

