-- ==== Sys2Proof/Machine/Sequencer.lean ====
section
/-! DEFINITION. The Write Sequencer operations (45_host_sequences.md), each one step: it issues its block
requests (whose results are delivered), updates the Device State first, and then emits (R119, R163). Slot
arguments are checked before numeric ones (R146), and a fault leaves everything else as it was. -/

namespace Sys2Proof.Machine

/-- SetFrequency for a register and a finite frequency (R121). -/
def setFrequency (r : Reg) (hz : Rat) (s : State) : State :=
  let f := fclamp hz
  let s := s.setFreq r f
  let w := ftw s.ref f
  let c := s.controlWord
  let a := tagf r (splitLo w)
  let b := tagf r (splitUp w)
  (s.deliverAll [.hz f, .tuning w, .halves (splitLo w) (splitUp w), .word c, .word a, .word b]).transmitAll
    [c, a, b]

/-- SETFREQ (R121). -/
def execSetFreq (x : SlotCode) (hz : Number) (s : State) : Out :=
  whenReady s (withRegister .a x s fun r => withNumber .a hz s fun q => .next (setFrequency r q s))

/-- INCFREQ (R122): SetFrequency of the stored frequency plus `d`. -/
def execIncFreq (x : SlotCode) (d : Number) (s : State) : Out :=
  whenReady s (withRegister .a x s fun r =>
    withNumber .a (addTo (s.ds.freq.get r) d) s fun q => .next (setFrequency r q s))

/-- SetPhase for a register and a finite phase (R123). -/
def setPhaseDeg (r : Reg) (deg : Rat) (s : State) : State :=
  let p := pnorm deg
  let s := s.setPhase r p
  let v := phw deg
  let w := tagp r v
  (s.deliverAll [.degrees p, .phase v, .word w]).transmit w

/-- SETPHASE (R123). -/
def execSetPhase (x : SlotCode) (deg : Number) (s : State) : Out :=
  whenReady s (withRegister .a x s fun r => withNumber .a deg s fun q => .next (setPhaseDeg r q s))

/-- INCPHASE (R124): SetPhase of the stored phase plus `d`. -/
def execIncPhase (x : SlotCode) (d : Number) (s : State) : Out :=
  whenReady s (withRegister .a x s fun r =>
    withNumber .a (addTo (s.ds.phase.get r) d) s fun q => .next (setPhaseDeg r q s))

/-- SETWAVE (R125): a control word is emitted only for the active frequency slot. -/
def execSetWave (x : SlotCode) (wf : Waveform) (s : State) : Out :=
  whenReady s (withRegister .a x s fun r =>
    if r = s.ds.fsel then .next (s.setWave r wf).emitControl else .next (s.setWave r wf))

/-- ENABLE (R126). -/
def execEnable (b : Bool) (s : State) : Out := whenReady s (.next (s.setOutEn b).emitControl)

/-- RESET (R127): the Device State is neither read nor written; the wait for `RESET_SETTLE` changes no
state. -/
def execReset (s : State) : Out := whenReady s (.next ((s.deliver (.word rstw)).transmit rstw))

/-- SLEEP (R128). -/
def execSleep (b : Bool) (s : State) : Out := whenReady s (.next (s.setSleep b).emitControl)

/-- SETSRC (R129). -/
def execSetSrc (fs ps : SlotCode) (s : State) : Out :=
  whenReady s (withRegister .a fs s fun r =>
    withPhaseSelector .b ps r s fun q =>
      .next (((s.deliver (.slot q)).setSource r q).emitControl))

/-- One Write Sequencer operation (R70). -/
def execOp (o : HostOp) (s : State) : Out :=
  match o with
  | .setFreq x hz => execSetFreq x hz s
  | .incFreq x d => execIncFreq x d s
  | .setPhase x deg => execSetPhase x deg s
  | .incPhase x d => execIncPhase x d s
  | .setWave x wf => execSetWave x wf s
  | .enable b => execEnable b s
  | .reset => execReset s
  | .sleep b => execSleep b s
  | .setSrc fs ps => execSetSrc fs ps s

end Sys2Proof.Machine
end

