-- ==== Sys2Proof/Machine/Program.lean ====
section
/-! DEFINITION. Running one statement of the host's program (R69, R70): fetch the operands it uses, decode,
execute, and bind the names after `->`. -/

namespace Sys2Proof.Machine

/-- A slot the statement uses is fetched; an unused one is ignored (R53) and reads 0. -/
def fetchArg (used : Bool) (x : Arg) (s : State) (k : Number → Out) : Out :=
  match used, x with
  | false, _ => k (.rat 0)
  | true, .lit n => k n
  | true, .name y =>
    match s.value? (.name y) with
    | some n => k n
    | none => .refused (.unboundName y)

/-- Go on with a decoded thing, or refuse by the name of the decode error. Only a bit-field operand can
fail here: the words of no row run (`execOtherWord`). -/
def withDecoded {α : Type} (r : Except DecodeError α) (k : α → Out) : Out :=
  match r with
  | .ok x => k x
  | .error (.unpresentable p) => .refused (.unpresentable p)
  | .error (.noRow _) => .refused (.unpresentable .a)
  | .error .notOneWord => .refused (.unpresentable .a)

/-- Bind the names of a request that completed. -/
def bindAfter (into : List Name) (before : Nat) (o : Out) : Out :=
  match o with
  | .next s => .next (s.bindNames into before)
  | .fault r => .fault r
  | .refused r => .refused r

/-- `EMIT` of a u16 word (R69): the table row's meaning, or the word's own where no row has it. -/
def execWord (w : Word) (s : State) : Out :=
  match decodeWord w with
  | .ok i => exec i s
  | .error _ => execOtherWord w s

/-- One statement. A Write Sequencer operation binds no name: the names that its expansion in R70 writes
after `->` (f, w, lo, up, c, a, b, p, v, x, q) are its own and do not become names of the host's program.
The spec is silent on this; it is the model's choice (log entry 32). -/
def runStmt (t : Stmt) (s : State) : Out :=
  match t with
  | .request o a b into =>
    fetchArg (1 ≤ opselArity o) a s fun x => fetchArg (2 ≤ opselArity o) b s fun y =>
      withDecoded (decodeRequest ⟨o, x, y⟩) fun i => bindAfter into s.results.length (exec i s)
  | .op k a b =>
    fetchArg (1 ≤ k.arity) a s fun x => fetchArg (2 ≤ k.arity) b s fun y =>
      withDecoded (decodeOp k x y) fun o => execOp o s
  | .emit x =>
    fetchArg true x s fun n => withDecoded (presentField .a 16 n) fun w => execWord w s

/-- The host appends statements to its pending program (R16, R48). -/
def State.load (ts : List Stmt) (s : State) : State := { s with program := s.program ++ ts }

/-- The statement that spells an instruction. -/
def stmtOf : Encoded → Stmt
  | .request r => .request r.opsel (.lit r.a) (.lit r.b) []
  | .word w => .emit (.lit (.ofField w))

/-- The statement whose bits, numbered as spec/opcode_table.json numbers them, are `w`. -/
def stmtOfTableWord (nbits w : Nat) : Stmt :=
  if nbits ≤ 8 then stmtOf (.request ⟨BitVec.ofNat 4 w, .rat 0, .rat 0⟩)
  else stmtOf (.word (BitVec.ofNat 16 w))

end Sys2Proof.Machine
end

