-- ==== Sys2Proof/Machine/Step.lean ====
section
/-! DEFINITION. The step. The block has no program counter (R24): the machine takes the host's pending
statements in program order (R48), each in one step (R53, R163). -/

namespace Sys2Proof.Machine

/-- A faulted instance has no step (R142). With no statement pending nothing happens (R23, R147);
otherwise the first one runs. -/
def step (s : State) : Host.Outcome State Fault Refusal :=
  whenReady s <|
    match s.program with
    | [] => .next s
    | t :: rest => runStmt t { s with program := rest }

/-- `s` with the instruction whose bits are `w` as the first pending statement. -/
def State.withFetchWord (s : State) (nbits w : Nat) : State :=
  { s with program := stmtOfTableWord nbits w :: s.program }

end Sys2Proof.Machine
end

