-- ==== Sys2Proof/Safety.lean ====
section
/-! DEFINITION. What the claims are stated over: the observation of a run, the invariant of the Device
State, and contract-order use of the chip. -/

namespace Sys2Proof

/-- The statement hands no raw word to the transport: it is a request or a Write Sequencer operation. -/
def Stmt.isContract : Stmt → Bool
  | .request _ _ _ _ => true
  | .op _ _ _ => true
  | .emit _ => false

namespace Machine

/-- What a run is observed by (R136): the Device State, `FAULT`, and the emitted words in order. -/
def State.observe (s : State) : DeviceState × FaultReg × List Word := (s.ds, s.fault, s.emitted)

/-- A successful end: nothing pending and no fault (R142: a faulted state "is never a successful end of
a run"). -/
def State.done (s : State) : Bool := s.ready && s.program.isEmpty

/-- The ranges of R28 and R29. -/
def inRange (ds : DeviceState) : Prop :=
  ∀ r : Reg, Config.fMin ≤ ds.freq.get r ∧ ds.freq.get r ≤ Config.fMax
    ∧ 0 ≤ ds.phase.get r ∧ ds.phase.get r < Config.phaseTurn

/-- The machine's invariant: unless construction was rejected (R141), `REF > 0` (R21) and the Device
State is in range (R28, R29). -/
def State.Inv (s : State) : Prop :=
  s.fault.code = .badReference ∨ (0 < s.ref ∧ inRange s.ds)

/-- "Never the second half of a frequency update" is expected, and the chip's order was never broken
(R164). -/
def Chip.inOrder (c : Chip) : Prop := c.expects = .idle ∨ c.expects = .lower

/-- The host keeps its contract: the chip is in order, and every pending statement is a request or a
Write Sequencer operation (R119, R161). -/
def State.contract (s : State) : Prop :=
  s.chip.inOrder ∧ s.program.all Stmt.isContract = true

/-- The operand is the number: as a literal, or as a name bound to it (R69). -/
def State.denotes (s : State) (a : Arg) (x : Number) : Prop :=
  a = .lit x ∨ ∃ n, a = .name n ∧ s.names.lookup n = some x

/-- `n` is the integer nearest to `x`, a tie going away from zero (R11). -/
def NearestAway (n : Int) (x : Rat) : Prop :=
  |x - n| ≤ 1 / 2 ∧ (|x - n| = 1 / 2 → |x| < |(n : Rat)|)

/-- The row is an output-word class; the other rows are requests. -/
def isOutputWord : Instr → Bool
  | .fclamp _ => false
  | .ftw _ => false
  | .w2f _ => false
  | .split _ => false
  | .res => false
  | .pnorm _ => false
  | .phw _ => false
  | .tagf _ _ => false
  | .tagp _ _ => false
  | .ccw _ => false
  | .resolve _ _ => false
  | .rstw => false
  | .illegal0 => false
  | .illegalD => false
  | .illegalE => false
  | .illegalF => false
  | .ctrl _ => true
  | .rstWord => true
  | .freq0 _ => true
  | .freq1 _ => true
  | .phase0 _ => true
  | .phase1 _ => true

/-- Several instructions, one after the other, stopping at the first that does not complete. -/
def execAll : List Instr → State → Out
  | [], s => .next s
  | i :: is, s =>
    match exec i s with
    | .next t => execAll is t
    | .fault r => .fault r
    | .refused r => .refused r

/-- The output word that carries a frequency half for a register (R65). -/
def freqInstr (r : Reg) (h : Half) : Instr :=
  match r with
  | .reg0 => .freq0 h
  | .reg1 => .freq1 h

/-- The output word that carries a phase word for a register (R66). -/
def phaseInstr (r : Reg) (v : PhaseWord) : Instr :=
  match r with
  | .reg0 => .phase0 v
  | .reg1 => .phase1 v

/-- The output word that carries the control word composed from the Device State (R104). -/
def controlInstr (s : State) : Instr := .ctrl (ctrlBits s.controlWord)

end Machine

end Sys2Proof
end

