-- ==== Sys2Proof/WellFormed.lean ====
section
/-! DEFINITION. Which instructions are legal as the encoding rules use the word: a legal selector (R55),
finite numeric operands (R92), legal slot codes (R58), and control words the composer can make (R63, R107).
An ill-formed request still decodes: it has a meaning, which is the fault R143, R144 or R145 names. -/

namespace Sys2Proof

/-- A numeric operand lies in the block's domain when it is an exact rational (R56, R92). -/
def Number.isFinite : Number → Bool
  | .rat _ => true
  | .nan => false
  | .inf _ => false

/-- REG0 or REG1: what every slot operand but RESOLVE's B must be (R58). -/
def SlotCode.isRegister : SlotCode → Bool
  | .reg0 => true
  | .reg1 => true
  | .same => false
  | .illegal => false

/-- REG0, REG1 or SAME: what RESOLVE's operand B must be (R58, R109). -/
def SlotCode.isPhaseSelector : SlotCode → Bool
  | .reg0 => true
  | .reg1 => true
  | .same => true
  | .illegal => false

/-- The bit combinations of a composed control word: D7 = D6 (R104 step 5), never D5 and D1 together,
and D3 only with D5 (R107 (e)). -/
def CtrlBits.composable (b : CtrlBits) : Bool :=
  (b.sleep1 == b.sleep12) && !(b.opbiten && b.mode) && (!b.div2 || b.opbiten)

/-- The instruction is legal under R55, R58, R63 and R92. -/
def Instr.wellFormed : Instr → Bool
  | .fclamp f => f.isFinite
  | .ftw f => f.isFinite
  | .w2f _ => true
  | .split _ => true
  | .res => true
  | .pnorm p => p.isFinite
  | .phw p => p.isFinite
  | .tagf s _ => s.isRegister
  | .tagp s _ => s.isRegister
  | .ccw _ => true
  | .resolve fs ps => fs.isRegister && ps.isPhaseSelector
  | .rstw => true
  | .illegal0 => false
  | .illegalD => false
  | .illegalE => false
  | .illegalF => false
  | .ctrl b => b.composable
  | .rstWord => true
  | .freq0 _ => true
  | .freq1 _ => true
  | .phase0 _ => true
  | .phase1 _ => true

end Sys2Proof
end

