-- ==== Sys2Proof/Certificates/Slice0/Obligations.lean ====
section
/-! DEFINITION. The statements for the provers, from the numbered rules of spec/. A free value of the
chip is never relied on: every statement holds whatever it is. -/

open Sys2Proof Sys2Proof.Machine

/-! ## Reset and construction -/

/-- R33, R35, R120, R156: a construction with `ref > 0` latches `REF`, clears `FAULT.code`, gives the
Device State its defaults and emits no word; the reset state is the construction with the default
reference 25,000,000. (`FAULT.info`, the chip-select 0 and the chip registers of the reset state are the
model's: log entries 2, 3 and 9.) -/
def Obligations.ConstructionLatchesReference : Prop :=
  ∀ (cs : Nat) (ref : Rat) (swap : Bool), 0 < ref →
    (construct cs ref swap).ref = ref ∧ (construct cs ref swap).fault.code = .none
    ∧ (construct cs ref swap).squareD3Swap = swap
    ∧ (construct cs ref swap).ds.freq.reg0 = 1000 ∧ (construct cs ref swap).ds.freq.reg1 = 1000
    ∧ (construct cs ref swap).ds.wave.reg0 = .sine ∧ (construct cs ref swap).ds.wave.reg1 = .sine
    ∧ (construct cs ref swap).ds.phase.reg0 = 0 ∧ (construct cs ref swap).ds.phase.reg1 = 0
    ∧ (construct cs ref swap).ds.fsel = .reg0 ∧ (construct cs ref swap).ds.psel = .reg0
    ∧ (construct cs ref swap).ds.outEn = false ∧ (construct cs ref swap).ds.sleep = false
    ∧ (construct cs ref swap).emitted = []
    ∧ construct 0 25000000 false = State.reset

/-- R141, R142: a construction with `ref ≤ 0` records BAD_REFERENCE with the rejected value and emits no
word, and the instance never takes a step, whatever its host's program. -/
def Obligations.ConstructionRejectsBadReference : Prop :=
  ∀ (cs : Nat) (ref : Rat) (swap : Bool), ref ≤ 0 →
    (construct cs ref swap).fault = ⟨.badReference, .reference ref⟩
    ∧ (construct cs ref swap).emitted = []
    ∧ ∀ p : List Stmt, step { construct cs ref swap with program := p } = .fault .faulted

/-- R140: the numbers of the fault codes. -/
def Obligations.FaultCodesAreNumbered : Prop :=
  FaultCode.none.number = 0 ∧ FaultCode.badReference.number = 1 ∧ FaultCode.illegalOpsel.number = 2
  ∧ FaultCode.illegalSlot.number = 3 ∧ FaultCode.nonfiniteInput.number = 4

/-! ## Encoding -/

/-- R54, R58, R62 to R66: decoding an instruction's own spelling gives it back, every operand at every
value, ill-formed requests included. -/
def Obligations.DecodeEncodeAgree : Prop := ∀ i : Instr, decode (encode i) = .ok i

/-- R62 to R66: a word has one meaning. The row a word decodes to is spelled by that word alone. -/
def Obligations.WordsDecodeUniquely : Prop :=
  ∀ (w : Word) (i : Instr), decodeWord w = .ok i → encode i = .word w ∧ isOutputWord i = true

/-- R54, R55, R56: OPSEL alone selects the operation. Whatever the operand slots hold, a selector decodes
to its operation and to nothing else; where an operand is a bit field, exactly its presentable values
decode, and an unused slot is ignored. R70, R58, R59: so for the pseudo-instructions, whose kind alone
selects the Write Sequencer operation. (That a waveform is its 2-bit code and a switch one bit as an operand
there is log entry 5.) -/
def Obligations.OpselAloneSelects : Prop :=
  ∀ a b : Number,
    decodeRequest ⟨0x0, a, b⟩ = .ok .illegal0
    ∧ decodeRequest ⟨0x1, a, b⟩ = .ok (.fclamp a)
    ∧ decodeRequest ⟨0x2, a, b⟩ = .ok (.ftw a)
    ∧ (∀ i, decodeRequest ⟨0x3, a, b⟩ = .ok i ↔ ∃ w : Tuning, a = .rat (w.toNat : Rat) ∧ i = .w2f w)
    ∧ (∀ i, decodeRequest ⟨0x4, a, b⟩ = .ok i ↔ ∃ w : Tuning, a = .rat (w.toNat : Rat) ∧ i = .split w)
    ∧ decodeRequest ⟨0x5, a, b⟩ = .ok .res
    ∧ decodeRequest ⟨0x6, a, b⟩ = .ok (.pnorm a)
    ∧ decodeRequest ⟨0x7, a, b⟩ = .ok (.phw a)
    ∧ (∀ i, decodeRequest ⟨0x8, a, b⟩ = .ok i ↔ ∃ (x : SlotCode) (h : Half),
        a = .rat (x.code.toNat : Rat) ∧ b = .rat (h.toNat : Rat) ∧ i = .tagf x h)
    ∧ (∀ i, decodeRequest ⟨0x9, a, b⟩ = .ok i ↔ ∃ (x : SlotCode) (v : PhaseWord),
        a = .rat (x.code.toNat : Rat) ∧ b = .rat (v.toNat : Rat) ∧ i = .tagp x v)
    ∧ (∀ i, decodeRequest ⟨0xA, a, b⟩ = .ok i ↔ ∃ c : Civ, a = .rat (c.toNat : Rat) ∧ i = .ccw c)
    ∧ (∀ i, decodeRequest ⟨0xB, a, b⟩ = .ok i ↔ ∃ x y : SlotCode,
        a = .rat (x.code.toNat : Rat) ∧ b = .rat (y.code.toNat : Rat) ∧ i = .resolve x y)
    ∧ decodeRequest ⟨0xC, a, b⟩ = .ok .rstw
    ∧ decodeRequest ⟨0xD, a, b⟩ = .ok .illegalD
    ∧ decodeRequest ⟨0xE, a, b⟩ = .ok .illegalE
    ∧ decodeRequest ⟨0xF, a, b⟩ = .ok .illegalF
    ∧ (∀ o, decodeOp .setFreq a b = .ok o ↔ ∃ x : SlotCode, a = .rat (x.code.toNat : Rat) ∧ o = .setFreq x b)
    ∧ (∀ o, decodeOp .incFreq a b = .ok o ↔ ∃ x : SlotCode, a = .rat (x.code.toNat : Rat) ∧ o = .incFreq x b)
    ∧ (∀ o, decodeOp .setPhase a b = .ok o ↔
        ∃ x : SlotCode, a = .rat (x.code.toNat : Rat) ∧ o = .setPhase x b)
    ∧ (∀ o, decodeOp .incPhase a b = .ok o ↔
        ∃ x : SlotCode, a = .rat (x.code.toNat : Rat) ∧ o = .incPhase x b)
    ∧ (∀ o, decodeOp .setWave a b = .ok o ↔ ∃ (x : SlotCode) (wf : Waveform),
        a = .rat (x.code.toNat : Rat) ∧ b = .rat (wf.code.toNat : Rat) ∧ o = .setWave x wf)
    ∧ (∀ o, decodeOp .enable a b = .ok o ↔ ∃ v : Bool, a = .rat (v.toNat : Rat) ∧ o = .enable v)
    ∧ decodeOp .reset a b = .ok .reset
    ∧ (∀ o, decodeOp .sleep a b = .ok o ↔ ∃ v : Bool, a = .rat (v.toNat : Rat) ∧ o = .sleep v)
    ∧ (∀ o, decodeOp .setSrc a b = .ok o ↔ ∃ x y : SlotCode,
        a = .rat (x.code.toNat : Rat) ∧ b = .rat (y.code.toNat : Rat) ∧ o = .setSrc x y)

/-- R54, R58, R60, R62 to R66: spellings written out from the encoding tables. -/
def Obligations.SpellingsFromTheTablesDecode : Prop :=
  decodeRequest ⟨0b0001, .rat 1000, .rat 0⟩ = .ok (.fclamp (.rat 1000))
  ∧ decodeRequest ⟨0b0100, .rat 10737, .rat 0⟩ = .ok (.split 0x29F1)
  ∧ decodeRequest ⟨0b1000, .rat 1, .rat 16383⟩ = .ok (.tagf .reg1 0x3FFF)
  ∧ decodeRequest ⟨0b1011, .rat 1, .rat 2⟩ = .ok (.resolve .reg1 .same)
  ∧ decodeRequest ⟨0b1101, .rat 1000, .rat 0⟩ = .ok .illegalD
  ∧ decodeWord 0b0010110000101000
      = .ok (.ctrl ⟨true, true, false, false, false, true, true, false⟩)
  ∧ decodeWord 0b0000000100000000 = .ok .rstWord
  ∧ decodeWord 0b0110100111110001 = .ok (.freq0 0x29F1)
  ∧ decodeWord 0b1010000000000000 = .ok (.freq1 0x2000)
  ∧ decodeWord 0b1100010000000000 = .ok (.phase0 0x400)
  ∧ decodeWord 0b1110110000000000 = .ok (.phase1 0xC00)

/-- R62: header decode, total over every u16 word. -/
def Obligations.HeaderSelectsTheWordClass : Prop :=
  ∀ w : Word,
    (headerClass w = .control ↔ w.getLsbD 15 = false ∧ w.getLsbD 14 = false)
    ∧ (headerClass w = .freq .reg0 ↔ w.getLsbD 15 = false ∧ w.getLsbD 14 = true)
    ∧ (headerClass w = .freq .reg1 ↔ w.getLsbD 15 = true ∧ w.getLsbD 14 = false)
    ∧ (headerClass w = .phase ↔ w.getLsbD 15 = true ∧ w.getLsbD 14 = true)

/-- R42, R43: the bytes of a word go most significant first and give the word back; on the serial line
the bits go D15 to D0 (the order within a byte is decision D13, log entry 8). -/
def Obligations.WordsGoMostSignificantByteFirst : Prop :=
  ∀ w : Word,
    wordBytes w = [w.extractLsb' 8 8, w.extractLsb' 0 8]
    ∧ wordOfBytes (w.extractLsb' 8 8) (w.extractLsb' 0 8) = w
    ∧ wordSerial Config.serialBitOrder w = (List.range 16).map fun i => w.getLsbD (15 - i)

/-- R60: `pack(ds)` carries every field the composer reads at its bit position, every u8 is a packed
Device State, and the construction default packs to 0x00. -/
def Obligations.PackCarriesEveryField : Prop :=
  (∀ ds : DeviceState,
    ((packCiv ds).getLsbD 0 = true ↔ ds.fsel = .reg1)
    ∧ ((packCiv ds).getLsbD 1 = true ↔ ds.psel = .reg1)
    ∧ (packCiv ds).extractLsb' 2 2 = ds.wave.reg0.code
    ∧ (packCiv ds).extractLsb' 4 2 = ds.wave.reg1.code
    ∧ (packCiv ds).getLsbD 6 = ds.outEn
    ∧ (packCiv ds).getLsbD 7 = ds.sleep)
  ∧ (∀ c : Civ, ∃ ds : DeviceState, packCiv ds = c)
  ∧ packCiv State.reset.ds = 0

/-! ## The step -/

/-- R53, R69, R70: where the first pending statement spells an instruction, a step is that instruction's
`exec` on the state with the statement taken; where it is a pseudo-instruction, a step is the Write Sequencer
operation that it decodes to (in one step: log entry 14); with none pending a step changes nothing (log
entry 10). -/
def Obligations.StepRunsTheDecodedInstruction : Prop :=
  (∀ (s : State) (e : Encoded) (i : Instr) (rest : List Stmt),
    s.fault.code = .none → s.program = stmtOf e :: rest → decode e = .ok i →
    step s = exec i { s with program := rest })
  ∧ (∀ (s : State) (k : OpKind) (a b : Number) (o : HostOp) (rest : List Stmt),
    s.fault.code = .none → s.program = .op k (.lit a) (.lit b) :: rest → decodeOp k a b = .ok o →
    step s = execOp o { s with program := rest })
  ∧ ∀ s : State, s.fault.code = .none → s.program = [] → step s = .next s

/-- R69: the names after `->` are bound to the values of the result; and an operand given by a bound name
is the number it is bound to, each operand on its own, in a request, a Write Sequencer operation and an
EMIT. (How many names bind, and what a name bound again or written twice after one arrow denotes, are the
model's choice, log entry 11; that the operations bind none is log entry 32.) -/
def Obligations.NamesCarryResults : Prop :=
  (∀ (s t : State) (o : BitVec 4) (a b : Arg) (x y : Number) (i : Instr) (v : Result) (into : List Name)
      (rest : List Stmt),
    s.fault.code = .none → s.program = .request o a b into :: rest → s.denotes a x → s.denotes b y →
    decodeRequest ⟨o, x, y⟩ = .ok i → exec i { s with program := rest } = .next t →
    t.results = s.results ++ [v] →
    step s = .next { t with names := into.zip v.values ++ t.names })
  ∧ ∀ (s : State) (a b : Arg) (x y : Number) (rest : List Stmt), s.denotes a x → s.denotes b y →
    (∀ (o : BitVec 4) (into : List Name),
      step { s with program := .request o a b into :: rest }
        = step { s with program := .request o (.lit x) (.lit y) into :: rest })
    ∧ (∀ k : OpKind,
      step { s with program := .op k a b :: rest }
        = step { s with program := .op k (.lit x) (.lit y) :: rest })
    ∧ step { s with program := .emit a :: rest } = step { s with program := .emit (.lit x) :: rest }

/-- R119: `EMIT x` of any u16 word appends exactly that word, whatever its bits, and changes nothing of
the block, the Device State or the host. -/
def Obligations.EmitHandsOverAnyWord : Prop :=
  ∀ (s : State) (w : Word) (rest : List Stmt),
    s.fault.code = .none → s.program = .emit (.lit (.rat (w.toNat : Rat))) :: rest →
    ∃ chip : Chip, step s = .next
      { s with program := rest, emitted := s.emitted ++ [w], chip := chip, draws := s.draws + 1 }

/-- R48: program order. A step takes the first pending statement and no other, and the words and results
already out stay as they are. -/
def Obligations.StepsKeepProgramOrder : Prop :=
  ∀ (s t : State), step s = .next t →
    t.program = s.program.tail ∧ s.emitted <+: t.emitted ∧ s.results <+: t.results

/-- R21, R51: `REF` and the construction parameters are never written after construction. -/
def Obligations.NoStepWritesTheConfiguration : Prop :=
  ∀ (s t : State), step s = .next t →
    t.ref = s.ref ∧ t.squareD3Swap = s.squareD3Swap ∧ t.chipSelect = s.chipSelect

/-- R28, R29, R33: the reset state meets the invariant. -/
def Obligations.ResetMeetsTheInvariant : Prop := State.reset.Inv

/-- R21, R28, R29: every step keeps `REF > 0`, every stored frequency in [0.1, 12.5e6] and every stored
phase in [0, 360). -/
def Obligations.StepKeepsTheInvariant : Prop :=
  ∀ s t : State, s.Inv → step s = .next t → t.Inv

/-- R164: while the host's program is made of requests and Write Sequencer operations, every step leaves
the chip expecting a control word or a phase word, never the second half of a frequency update. -/
def Obligations.StepKeepsTheChipInOrder : Prop :=
  ∀ s t : State, s.contract → step s = .next t → t.contract

/-! ## Faults -/

/-- R142: while `FAULT.code ≠ 0` no request, no word, no host operation and no statement has a step. -/
def Obligations.FaultedInstanceHasNoStep : Prop :=
  ∀ s : State, s.fault.code ≠ .none →
    (∀ i : Instr, exec i s = .fault .faulted) ∧ (∀ o : HostOp, execOp o s = .fault .faulted)
    ∧ step s = .fault .faulted

/-- R119, R142: a fault is precise. A request or host operation that ends with `FAULT.code ≠ 0` changed
`FAULT` and nothing else. -/
def Obligations.RaisedFaultChangesOnlyFault : Prop :=
  ∀ s t : State, t.fault.code ≠ .none →
    (∀ i : Instr, exec i s = .next t → t = { s with fault := t.fault })
    ∧ (∀ o : HostOp, execOp o s = .next t → t = { s with fault := t.fault })

/-- R143: an illegal selector raises ILLEGAL_OPSEL with the selector. -/
def Obligations.IllegalSelectorsRaise : Prop :=
  ∀ s : State, s.fault.code = .none →
    exec .illegal0 s = .next { s with fault := ⟨.illegalOpsel, .opsel 0x0⟩ }
    ∧ exec .illegalD s = .next { s with fault := ⟨.illegalOpsel, .opsel 0xD⟩ }
    ∧ exec .illegalE s = .next { s with fault := ⟨.illegalOpsel, .opsel 0xE⟩ }
    ∧ exec .illegalF s = .next { s with fault := ⟨.illegalOpsel, .opsel 0xF⟩ }

/-- R144, R146: TAGF and TAGP raise ILLEGAL_SLOT for a slot that is not REG0 or REG1; RESOLVE for its
frequency slot first, then for the code 3 as its phase slot. -/
def Obligations.IllegalSlotsRaise : Prop :=
  ∀ s : State, s.fault.code = .none →
    ∀ x : SlotCode, x = .same ∨ x = .illegal →
      (∀ h : Half, exec (.tagf x h) s = .next { s with fault := ⟨.illegalSlot, .slot .a x⟩ })
      ∧ (∀ v : PhaseWord, exec (.tagp x v) s = .next { s with fault := ⟨.illegalSlot, .slot .a x⟩ })
      ∧ (∀ y : SlotCode, exec (.resolve x y) s = .next { s with fault := ⟨.illegalSlot, .slot .a x⟩ })
      ∧ (∀ r : Reg, exec (.resolve r.toSlot .illegal) s
          = .next { s with fault := ⟨.illegalSlot, .slot .b .illegal⟩ })

/-- R145: a NaN or an infinity presented to FCLAMP, FTW, PNORM or PHW raises NONFINITE_INPUT. -/
def Obligations.NonfiniteOperandsRaise : Prop :=
  ∀ (s : State) (x : Number), s.fault.code = .none → x = .nan ∨ x = .inf true ∨ x = .inf false →
    exec (.fclamp x) s = .next { s with fault := ⟨.nonfiniteInput, .operand .a⟩ }
    ∧ exec (.ftw x) s = .next { s with fault := ⟨.nonfiniteInput, .operand .a⟩ }
    ∧ exec (.pnorm x) s = .next { s with fault := ⟨.nonfiniteInput, .operand .a⟩ }
    ∧ exec (.phw x) s = .next { s with fault := ⟨.nonfiniteInput, .operand .a⟩ }

/-- R119, R130, R144, R145: a host operation with an illegal slot raises ILLEGAL_SLOT before anything
else, and one with a legal slot and a non-finite argument raises NONFINITE_INPUT; nothing else changes.
(That the recorded position is the faulting request's is log entry 13.) -/
def Obligations.HostOperationsRaiseAtEntry : Prop :=
  ∀ s : State, s.fault.code = .none →
    (∀ x : SlotCode, x = .same ∨ x = .illegal → ∀ (n : Number) (wf : Waveform) (y : SlotCode),
      let u := Host.Outcome.next { s with fault := ⟨.illegalSlot, .slot .a x⟩ }
      execOp (.setFreq x n) s = u ∧ execOp (.incFreq x n) s = u ∧ execOp (.setPhase x n) s = u
      ∧ execOp (.incPhase x n) s = u ∧ execOp (.setWave x wf) s = u ∧ execOp (.setSrc x y) s = u)
    ∧ (∀ r : Reg, execOp (.setSrc r.toSlot .illegal) s
        = .next { s with fault := ⟨.illegalSlot, .slot .b .illegal⟩ })
    ∧ (∀ (r : Reg) (n : Number), n = .nan ∨ n = .inf true ∨ n = .inf false →
      let u := Host.Outcome.next { s with fault := ⟨.nonfiniteInput, .operand .a⟩ }
      execOp (.setFreq r.toSlot n) s = u ∧ execOp (.incFreq r.toSlot n) s = u
      ∧ execOp (.setPhase r.toSlot n) s = u ∧ execOp (.incPhase r.toSlot n) s = u)

/-- R139, R140, R146: from a state without a fault, a legal instruction completes without one, and an
illegal request completes with exactly one recorded. (An output word never raises.) -/
def Obligations.OnlyIllegalRequestsFault : Prop :=
  ∀ (s : State) (i : Instr), s.fault.code = .none →
    (i.wellFormed = true ∨ isOutputWord i = true → ∃ t, exec i s = .next t ∧ t.fault = s.fault)
    ∧ (i.wellFormed = false → isOutputWord i = false →
        ∃ t, exec i s = .next t ∧ t.fault.code ≠ .none ∧ t.fault.code ≠ .badReference)

/-! ## Codec requests -/

/-- R23, R80: a request leaves everything but its result and `FAULT` as it was. -/
def Obligations.RequestsWriteNoState : Prop :=
  ∀ (s t : State) (i : Instr), isOutputWord i = false → exec i s = .next t →
    t = { s with results := t.results, fault := t.fault }

/-- R81: FCLAMP, OPSEL 0x1, delivers `min(max(f, 1/10), 12500000)` and changes nothing else. -/
def Obligations.FclampClampsToTheRange : Prop :=
  ∀ (s : State) (f : Rat), s.fault.code = .none →
    (∀ b, decodeRequest ⟨0x1, .rat f, b⟩ = .ok (.fclamp (.rat f)))
    ∧ exec (.fclamp (.rat f)) s
      = .next { s with results := s.results ++ [.hz (min (max f (1 / 10)) 12500000)] }

/-- R82, R11: FTW delivers the integer nearest to `f * 2^28 / REF`, ties away from zero (the spec's
decision D3), modulo 2^28 (decision D4), and does not clamp (decision D28). -/
def Obligations.FtwRoundsAndMasks : Prop :=
  ∀ (s : State) (f : Rat), s.fault.code = .none →
    ∃ (n : Int) (w : Tuning), NearestAway n (f * 2 ^ 28 / s.ref) ∧ (w.toNat : Int) = n % 2 ^ 28
      ∧ exec (.ftw (.rat f)) s = .next { s with results := s.results ++ [.tuning w] }

/-- R83 (which the spec marks as derived from R82 and R11): the laws of FTW on the wrap-free interval,
and that the clamp range lies in it for a reference above `12.5e6 / (1 - 2^-29)`. -/
def Obligations.FtwLawsOnTheWrapFreeInterval : Prop :=
  (∀ ref f : Rat, (ftw ref f).toNat ≤ 2 ^ 28 - 1)
  ∧ (∀ ref f g : Rat, 0 < ref → -1 / 2 < f * 2 ^ 28 / ref → g * 2 ^ 28 / ref < 2 ^ 28 - 1 / 2 → f ≤ g →
      (ftw ref f).toNat ≤ (ftw ref g).toNat)
  ∧ (∀ ref f : Rat, 0 < ref → -1 / 2 < f * 2 ^ 28 / ref → f * 2 ^ 28 / ref < 2 ^ 28 - 1 / 2 →
      |((ftw ref f).toNat : Rat) - f * 2 ^ 28 / ref| ≤ 1 / 2)
  ∧ (∀ ref f : Rat, 12500000 / (1 - 1 / 2 ^ 29) < ref → 1 / 10 ≤ f → f ≤ 12500000 →
      -1 / 2 < f * 2 ^ 28 / ref ∧ f * 2 ^ 28 / ref < 2 ^ 28 - 1 / 2)
  ∧ ftw 25000000 12500000 = 0x8000000

/-- R84: W2F delivers `w * REF / 2^28`, never rounded (decision D25), and changes nothing else. -/
def Obligations.W2fScalesExactly : Prop :=
  ∀ (s : State) (w : Tuning), s.fault.code = .none →
    exec (.w2f w) s = .next { s with results := s.results ++ [.hz (w.toNat * s.ref / 2 ^ 28)] }

/-- R85 (which the spec marks as derived): on the wrap-free interval `W2F(FTW(f))` is the grid point
nearest to `f`, ties to the larger for `f ≥ 0`, within `REF / 2^29`. Outside the interval it is farther from
`f` than that, for every `f`; and for every reference up to `12.5e6 / (1 - 2^-29)` the source's bound
`REF / 2^28` fails somewhere in the clamp range (REF = 1,000,000 gives 500,000 for f = 12.5e6). -/
def Obligations.FrequencyRoundTripIsNearest : Prop :=
  (∀ ref f : Rat, 0 < ref → -1 / 2 < f * 2 ^ 28 / ref → f * 2 ^ 28 / ref < 2 ^ 28 - 1 / 2 →
    |w2f ref (ftw ref f) - f| ≤ ref / 2 ^ 29
    ∧ ∀ k : Tuning, |w2f ref (ftw ref f) - f| ≤ |w2f ref k - f|
      ∧ (0 ≤ f → |w2f ref (ftw ref f) - f| = |w2f ref k - f| → k.toNat ≤ (ftw ref f).toNat))
  ∧ (∀ ref f : Rat, 0 < ref → f * 2 ^ 28 / ref ≤ -1 / 2 ∨ 2 ^ 28 - 1 / 2 ≤ f * 2 ^ 28 / ref →
      ref / 2 ^ 29 < |w2f ref (ftw ref f) - f|)
  ∧ (∀ ref : Rat, 0 < ref → ref ≤ 12500000 / (1 - 1 / 2 ^ 29) →
      ∃ f : Rat, 1 / 10 ≤ f ∧ f ≤ 12500000 ∧ ref / 2 ^ 28 < |w2f ref (ftw ref f) - f|)
  ∧ ftw 1000000 12500000 = 0x8000000 ∧ w2f 1000000 0x8000000 = 500000

/-- R86, R87: SPLIT, OPSEL 0x4, delivers the low and the high 14 bits and changes nothing else, and the
halves reassemble to the word. -/
def Obligations.SplitGivesHalvesThatReassemble : Prop :=
  ∀ (s : State) (w : Tuning), s.fault.code = .none →
    (∀ b, decodeRequest ⟨0x4, .rat (w.toNat : Rat), b⟩ = .ok (.split w))
    ∧ ∃ lo up : Half, lo.toNat = w.toNat % 2 ^ 14 ∧ up.toNat = w.toNat / 2 ^ 14
      ∧ (lo.zeroExtend 28 ||| (up.zeroExtend 28 <<< 14)) = w ∧ reassemble lo up = w
      ∧ exec (.split w) s = .next { s with results := s.results ++ [.halves lo up] }

/-- R88: RES, OPSEL 0x5, delivers `REF / 2^28`, which is what W2F of 1 delivers. -/
def Obligations.ResIsTheFrequencyStep : Prop :=
  ∀ s : State, s.fault.code = .none →
    (∀ a b, decodeRequest ⟨0x5, a, b⟩ = .ok .res)
    ∧ exec .res s = .next { s with results := s.results ++ [.hz (s.ref / 2 ^ 28)] }
    ∧ exec .res s = exec (.w2f 1) s

/-- R89: PNORM, OPSEL 0x6, delivers the value in [0, 360) that differs from its operand by whole turns,
and changes nothing else. -/
def Obligations.PnormWrapsIntoOneTurn : Prop :=
  ∀ (s : State) (p : Rat), s.fault.code = .none →
    (∀ b, decodeRequest ⟨0x6, .rat p, b⟩ = .ok (.pnorm (.rat p)))
    ∧ ∃ (k : Int) (q : Rat), q = p - 360 * k ∧ 0 ≤ q ∧ q < 360
      ∧ exec (.pnorm (.rat p)) s = .next { s with results := s.results ++ [.degrees q] }

/-- R90: PHW normalises, rounds `q * 4096 / 360` to nearest, ties away from zero (decision D3), and wraps
modulo 4096. -/
def Obligations.PhwRoundsAndWraps : Prop :=
  ∀ (s : State) (p : Rat), s.fault.code = .none →
    ∃ (k n : Int) (q : Rat) (v : PhaseWord), q = p - 360 * k ∧ 0 ≤ q ∧ q < 360
      ∧ NearestAway n (q * 4096 / 360) ∧ (v.toNat : Int) = n % 4096
      ∧ exec (.phw (.rat p)) s = .next { s with results := s.results ++ [.phase v] }

/-- R91 (which the spec marks as derived): PHW and PNORM do not see whole turns, and PHW does not see
PNORM. -/
def Obligations.PhaseIsPeriodic : Prop :=
  ∀ (s : State) (p : Rat) (k : Int),
    exec (.phw (.rat (p + 360 * k))) s = exec (.phw (.rat p)) s
    ∧ exec (.pnorm (.rat (p + 360 * k))) s = exec (.pnorm (.rat p)) s
    ∧ exec (.phw (.rat p)) s = exec (.phw (.rat (pnorm p))) s
    ∧ (phw p).toNat ≤ 4095 ∧ (360 : Rat) / 4096 = 0.087890625

/-! ## Tagging -/

/-- R97, R98: TAGF puts the register's header over the half, which is unchanged; its result is a frequency
word of that register. -/
def Obligations.TagfTagsTheHalf : Prop :=
  ∀ (s : State) (r : Reg) (h : Half), s.fault.code = .none →
    ∃ w : Word, exec (.tagf r.toSlot h) s = .next { s with results := s.results ++ [.word w] }
      ∧ w = (if r = .reg0 then 0x4000 else 0x8000) ||| h.zeroExtend 16
      ∧ w.extractLsb' 14 2 = (if r = .reg0 then 0b01 else 0b10) ∧ w.extractLsb' 0 14 = h
      ∧ headerClass w = .freq r

/-- R99, R100: TAGP puts the phase header and the slot bit over the phase word, with D12 = 0 (decision
D11). -/
def Obligations.TagpTagsThePhaseWord : Prop :=
  ∀ (s : State) (r : Reg) (v : PhaseWord), s.fault.code = .none →
    ∃ w : Word, exec (.tagp r.toSlot v) s = .next { s with results := s.results ++ [.word w] }
      ∧ w = 0xC000 ||| (if r = .reg1 then 0x2000 else 0) ||| v.zeroExtend 16
      ∧ w.extractLsb' 14 2 = 0b11 ∧ w.getLsbD 13 = decide (r = .reg1) ∧ w.getLsbD 12 = false
      ∧ w.extractLsb' 0 12 = v

/-! ## Composer -/

/-- R104, R105, R106, R63: CCW, bit by bit, for either value of `SQUARE_D3_SWAP`. `wf` is the waveform code
of the active frequency slot. (The base patterns are the spec's decision D9, the unnamed bits D10.) -/
def Obligations.CcwComposesEveryBit : Prop :=
  ∀ (s : State) (c : Civ), s.fault.code = .none →
    let wf : BitVec 2 := if c.getLsbD 0 then c.extractLsb' 4 2 else c.extractLsb' 2 2
    ∃ w : Word, exec (.ccw c) s = .next { s with results := s.results ++ [.word w] }
      ∧ w.extractLsb' 14 2 = 0 ∧ w.getLsbD 13 = true ∧ w.getLsbD 12 = false
      ∧ w.getLsbD 11 = c.getLsbD 0 ∧ w.getLsbD 10 = c.getLsbD 1 ∧ w.getLsbD 9 = false
      ∧ w.getLsbD 8 = !c.getLsbD 6 ∧ w.getLsbD 7 = c.getLsbD 7 ∧ w.getLsbD 6 = c.getLsbD 7
      ∧ w.getLsbD 5 = decide (wf = 2 ∨ wf = 3) ∧ w.getLsbD 4 = false
      ∧ w.getLsbD 3 = decide (wf = if s.squareD3Swap then 2 else 3)
      ∧ w.getLsbD 2 = false ∧ w.getLsbD 1 = decide (wf = 1) ∧ w.getLsbD 0 = false

/-- R107 (which the spec marks as derived): the laws of CCW, for either value of `SQUARE_D3_SWAP`: (a) to
(g). -/
def Obligations.CcwLaws : Prop :=
  ∀ (swap : Bool) (c : Civ),
    (ccw swap c).extractLsb' 14 2 = 0
    ∧ (c.getLsbD 6 = false → (ccw swap c).getLsbD 8 = true)
    ∧ (c.getLsbD 6 = true → c.getLsbD 7 = false →
        (ccw swap c).getLsbD 8 = false ∧ (ccw swap c).getLsbD 7 = false ∧ (ccw swap c).getLsbD 6 = false)
    ∧ (ccw swap c).getLsbD 13 = true ∧ ccw swap c &&& 0x1215 = 0
    ∧ ¬((ccw swap c).getLsbD 5 = true ∧ (ccw swap c).getLsbD 1 = true)
    ∧ ((ccw swap c).getLsbD 3 = true → (ccw swap c).getLsbD 5 = true)
    ∧ (∀ d : Civ, c.getLsbD 0 = d.getLsbD 0 → c.getLsbD 1 = d.getLsbD 1 → c.getLsbD 6 = d.getLsbD 6 →
        c.getLsbD 7 = d.getLsbD 7 →
        (if c.getLsbD 0 then c.extractLsb' 4 2 else c.extractLsb' 2 2)
          = (if d.getLsbD 0 then d.extractLsb' 4 2 else d.extractLsb' 2 2) →
        ccw swap c = ccw swap d)
    ∧ ∀ s t : State, s.fault = t.fault → s.squareD3Swap = t.squareD3Swap → s.results = t.results →
        ∀ s' t' : State, exec (.ccw c) s = .next s' → exec (.ccw c) t = .next t' → s'.results = t'.results

/-- R108 (which the spec marks as derived): the closed form for `SQUARE_D3_SWAP = false`; exactly 64 distinct results, from 0x2000 up to
0x2DE8. -/
def Obligations.CcwClosedForm : Prop :=
  (∀ c : Civ,
    let wf := civWave c (civFsel c)
    ccw false c = 0x2000 ||| (if wf = .triangle then 0x0002 else 0)
      ||| (if wf = .square ∨ wf = .halfSquare then 0x0020 else 0)
      ||| (if wf = .halfSquare then 0x0008 else 0)
      ||| (if c.getLsbD 0 then 0x0800 else 0) ||| (if c.getLsbD 1 then 0x0400 else 0)
      ||| (if c.getLsbD 6 then 0 else 0x0100) ||| (if c.getLsbD 7 then 0x00C0 else 0))
  ∧ (((List.range 256).map fun n => ccw false (BitVec.ofNat 8 n)).dedup).length = 64
  ∧ (∀ c : Civ, 0x2000 ≤ (ccw false c).toNat ∧ (ccw false c).toNat ≤ 0x2DE8)
  ∧ (∃ c, ccw false c = 0x2000) ∧ ∃ c, ccw false c = 0x2DE8

/-- R107 (d), R63: a composed control word is a legal CTRL row, and handing it over is that row. -/
def Obligations.ComposedWordsAreLegalControlWords : Prop :=
  ∀ (swap : Bool) (c : Civ), ∃ b : CtrlBits,
    decodeWord (ccw swap c) = .ok (.ctrl b) ∧ (Instr.ctrl b).wellFormed = true

/-- R109: RESOLVE passes REG0 and REG1 through and resolves SAME to the frequency slot. -/
def Obligations.ResolveNeverAnswersSame : Prop :=
  ∀ (s : State) (fs : Reg), s.fault.code = .none →
    (∀ ps : Reg, exec (.resolve fs.toSlot ps.toSlot) s
      = .next { s with results := s.results ++ [.slot ps] })
    ∧ exec (.resolve fs.toSlot .same) s = .next { s with results := s.results ++ [.slot fs] }

/-- R110: RSTW delivers 0x0100 (decision D12), whose header is a control word's, whatever the Device
State. -/
def Obligations.RstwIsTheResetOnlyWord : Prop :=
  ∀ s : State, s.fault.code = .none →
    exec .rstw s = .next { s with results := s.results ++ [.word 0x0100] }
    ∧ headerClass 0x0100 = .control

/-! ## Output words and the chip -/

/-- R63, R65, R66, R110, R119: each output-word row hands its word over, and changes nothing but the
emitted words and the chip. -/
def Obligations.OutputWordsAreHandedOver : Prop :=
  ∀ s : State, s.fault.code = .none →
    let handsOver (i : Instr) (w : Word) : Prop := ∃ chip : Chip,
      exec i s = .next { s with emitted := s.emitted ++ [w], chip := chip, draws := s.draws + 1 }
    (∀ b : CtrlBits, ∃ w : Word, handsOver (.ctrl b) w
      ∧ w &&& 0xF215 = 0x2000 ∧ w.getLsbD 11 = b.fsel ∧ w.getLsbD 10 = b.psel ∧ w.getLsbD 8 = b.reset
      ∧ w.getLsbD 7 = b.sleep1 ∧ w.getLsbD 6 = b.sleep12 ∧ w.getLsbD 5 = b.opbiten
      ∧ w.getLsbD 3 = b.div2 ∧ w.getLsbD 1 = b.mode)
    ∧ handsOver .rstWord 0x0100
    ∧ (∀ h : Half, handsOver (.freq0 h) (0x4000 ||| h.zeroExtend 16))
    ∧ (∀ h : Half, handsOver (.freq1 h) (0x8000 ||| h.zeroExtend 16))
    ∧ (∀ v : PhaseWord, handsOver (.phase0 v) (0xC000 ||| v.zeroExtend 16))
    ∧ (∀ v : PhaseWord, handsOver (.phase1 v) (0xE000 ||| v.zeroExtend 16))

/-- R111, R110, R47: a control word, a CTRL row or the reset-only word, is taken as a control-type write:
its type and its reset and sleep bits are the chip's; it perturbs no frequency or phase register; and the
same word again changes nothing of the chip. (Where the chip sleeps and the word wakes it, D7 = D6 = 0, I17
leaves the registers open, log entry 12; between two halves I12 leaves the frequency registers open, log
entry 15; that a word which begins a sleep or comes during one leaves them is the model's choice, log entry
36.) -/
def Obligations.ControlWordsPerturbNoOtherRegister : Prop :=
  ∀ s : State, s.fault.code = .none →
    let isControl (i : Instr) (inReset clockOff dacOff : Bool) : Prop :=
      ∃ t, exec i s = .next t
        ∧ t.chip.last = .control ∧ t.chip.inReset = inReset ∧ t.chip.clockOff = clockOff
        ∧ t.chip.dacOff = dacOff
        ∧ (s.chip.sleeping = false ∨ clockOff = true ∨ dacOff = true →
            t.chip.phase = s.chip.phase
            ∧ ((∀ r lo, s.chip.expects ≠ .upper r lo) → t.chip.freq = s.chip.freq))
        ∧ ∃ u, exec i t = .next u ∧ u.chip = t.chip
    (∀ b : CtrlBits, isControl (.ctrl b) b.reset b.sleep1 b.sleep12)
    ∧ isControl .rstWord true false false

/-- R123, R62, R47, R164: a phase word that a chip in order takes writes the phase register its slot bit
names and leaves the other one and the frequency registers. In any state of the chip it leaves the control
register and its type is the last. (Out of order R34 leaves the registers open, log entry 18; that a
sleeping chip takes the word as an awake one does is the model's choice, log entry 36.) -/
def Obligations.PhaseWordsWriteOnePhaseRegister : Prop :=
  ∀ (s : State) (r r' : Reg) (v : PhaseWord), s.fault.code = .none → r' ≠ r →
    ∃ t, exec (phaseInstr r v) s = .next t
      ∧ t.chip.control = s.chip.control ∧ t.chip.last = .phase
      ∧ (s.chip.inOrder →
          t.chip.phase.get r = v ∧ t.chip.phase.get r' = s.chip.phase.get r'
          ∧ t.chip.freq = s.chip.freq ∧ t.chip.inOrder)

/-- R131: after a control word with D13, the chip takes the next two frequency writes to one register as
its lower and then its upper half, leaves the other register, and is in order again. (That a sleeping chip
takes the words as an awake one does is the model's choice, log entry 36.) -/
def Obligations.ChipPairsTwoHalvesAfterAControlWord : Prop :=
  ∀ (s : State) (b : CtrlBits) (r r' : Reg) (lo up : Half),
    s.fault.code = .none → s.chip.inOrder → r' ≠ r →
    ∃ t u : State, exec (.ctrl b) s = .next t ∧ execAll [freqInstr r lo, freqInstr r up] t = .next u
      ∧ (u.chip.freq.get r).toNat = lo.toNat + 2 ^ 14 * up.toNat
      ∧ u.chip.freq.get r' = t.chip.freq.get r' ∧ u.chip.phase = t.chip.phase
      ∧ u.chip.control = t.chip.control ∧ u.chip.expects = .idle

/-! ## Write Sequencer -/

/-- R70, R119: every Write Sequencer operation with legal arguments is its expansion: the Device State
update, then its block requests and its words, each as the instruction it is. (That the names of the
expansion bind nothing is the model's choice, log entry 32.) -/
def Obligations.OperationsAreTheirExpansions : Prop :=
  ∀ s : State, s.fault.code = .none →
    (∀ (r : Reg) (hz : Rat),
      let f := fclamp hz
      let u := s.setFreq r f
      let w := ftw s.ref f
      execOp (.setFreq r.toSlot (.rat hz)) s
        = execAll [.fclamp (.rat hz), .ftw (.rat f), .split w, .ccw (packCiv u.ds),
            .tagf r.toSlot (splitLo w), .tagf r.toSlot (splitUp w),
            controlInstr u, freqInstr r (splitLo w), freqInstr r (splitUp w)] u)
    ∧ (∀ (r : Reg) (d : Rat), execOp (.incFreq r.toSlot (.rat d)) s
        = execOp (.setFreq r.toSlot (.rat (s.ds.freq.get r + d))) s)
    ∧ (∀ (r : Reg) (deg : Rat), execOp (.setPhase r.toSlot (.rat deg)) s
        = execAll [.pnorm (.rat deg), .phw (.rat deg), .tagp r.toSlot (phw deg), phaseInstr r (phw deg)]
            (s.setPhase r (pnorm deg)))
    ∧ (∀ (r : Reg) (d : Rat), execOp (.incPhase r.toSlot (.rat d)) s
        = execOp (.setPhase r.toSlot (.rat (s.ds.phase.get r + d))) s)
    ∧ (∀ (r : Reg) (wf : Waveform),
      let u := s.setWave r wf
      execOp (.setWave r.toSlot wf) s
        = execAll (if r = s.ds.fsel then [.ccw (packCiv u.ds), controlInstr u] else []) u)
    ∧ (∀ b : Bool,
      let u := s.setOutEn b
      execOp (.enable b) s = execAll [.ccw (packCiv u.ds), controlInstr u] u)
    ∧ execOp .reset s = execAll [.rstw, .rstWord] s
    ∧ (∀ b : Bool,
      let u := s.setSleep b
      execOp (.sleep b) s = execAll [.ccw (packCiv u.ds), controlInstr u] u)
    ∧ (∀ (fs q : Reg) (ps : SlotCode), resolveSlot fs ps = some q →
      let u := s.setSource fs q
      execOp (.setSrc fs.toSlot ps) s
        = execAll [.resolve fs.toSlot ps, .ccw (packCiv u.ds), controlInstr u] u)

/-- R121, R132: SetFrequency stores the clamped frequency and emits the live control word, the lower half
and the upper half, in that order, and changes nothing else of the Device State. (That it binds no name of
the host's program is the model's choice, log entry 32.) -/
def Obligations.SetFrequencyEmitsTheTriplet : Prop :=
  ∀ (s : State) (r r' : Reg) (hz : Rat), s.fault.code = .none → r' ≠ r →
    let f := min (max hz (1 / 10)) 12500000
    let w := ftw s.ref f
    ∃ t : State, execOp (.setFreq r.toSlot (.rat hz)) s = .next t
      ∧ t.ds.freq.get r = f ∧ t.ds.freq.get r' = s.ds.freq.get r'
      ∧ { t.ds with freq := s.ds.freq } = s.ds
      ∧ t.emitted = s.emitted
          ++ [ccw s.squareD3Swap (packCiv s.ds), tagf r (splitLo w), tagf r (splitUp w)]
      ∧ t.fault = s.fault ∧ t.program = s.program ∧ t.names = s.names

/-- R122, R124: the increments are the set operation of the sum with the stored value; that the sum is exact
is the spec's decision D2. -/
def Obligations.IncrementsAddToTheStoredValue : Prop :=
  ∀ (s : State) (r : Reg) (d : Rat),
    execOp (.incFreq r.toSlot (.rat d)) s = execOp (.setFreq r.toSlot (.rat (s.ds.freq.get r + d))) s
    ∧ execOp (.incPhase r.toSlot (.rat d)) s
        = execOp (.setPhase r.toSlot (.rat (s.ds.phase.get r + d))) s

/-- R123: SetPhase stores the normalised phase and emits exactly one word, a phase word, so that the chip's
reset bit stays as it was. That `deg + 360` does the same is R91 (b), which the spec marks as derived.
(That it binds no name of the host's program is the model's choice, log entry 32.) -/
def Obligations.SetPhaseEmitsOnePhaseWord : Prop :=
  ∀ (s : State) (r r' : Reg) (deg : Rat), s.fault.code = .none → r' ≠ r →
    ∃ (t : State) (k : Int), execOp (.setPhase r.toSlot (.rat deg)) s = .next t
      ∧ t.ds.phase.get r = deg - 360 * k ∧ 0 ≤ t.ds.phase.get r ∧ t.ds.phase.get r < 360
      ∧ t.ds.phase.get r' = s.ds.phase.get r' ∧ { t.ds with phase := s.ds.phase } = s.ds
      ∧ t.emitted = s.emitted ++ [tagp r (phw deg)] ∧ t.chip.inReset = s.chip.inReset
      ∧ t.fault = s.fault ∧ t.program = s.program ∧ t.names = s.names
      ∧ execOp (.setPhase r.toSlot (.rat (deg + 360))) s = .next t

/-- R125: SetWaveform stores the selection and emits the recomposed control word only for the active slot.
That a second call emits the same again, for every waveform, is R133, which the spec marks as derived.
(That it binds no name of the host's program is the model's choice, log entry 32.) -/
def Obligations.SetWaveformEmitsForTheActiveSlot : Prop :=
  ∀ (s : State) (r : Reg) (wf : Waveform), s.fault.code = .none →
    let ds := { s.ds with wave := s.ds.wave.set r wf }
    let ws := if r = s.ds.fsel then [ccw s.squareD3Swap (packCiv ds)] else []
    ∃ t u : State, execOp (.setWave r.toSlot wf) s = .next t ∧ t.ds = ds ∧ t.emitted = s.emitted ++ ws
      ∧ execOp (.setWave r.toSlot wf) t = .next u ∧ u.ds = ds ∧ u.emitted = t.emitted ++ ws
      ∧ t.fault = s.fault ∧ t.program = s.program ∧ t.names = s.names

/-- R126, R128: EnableOutput and SleepMode store their flag and emit the recomposed control word. The chip's
reset bit afterwards is R134, which the spec marks as derived; its clock and DAC bits are R63's and its
sleep is R155's (what the model holds of the chip is log entry 27). -/
def Obligations.EnableAndSleepEmitTheControlWord : Prop :=
  ∀ (s : State) (b : Bool), s.fault.code = .none →
    (∃ t : State, execOp (.enable b) s = .next t ∧ t.ds = { s.ds with outEn := b }
      ∧ t.emitted = s.emitted ++ [ccw s.squareD3Swap (packCiv { s.ds with outEn := b })]
      ∧ t.chip.inReset = !b ∧ t.fault = s.fault ∧ t.program = s.program)
    ∧ ∃ t : State, execOp (.sleep b) s = .next t ∧ t.ds = { s.ds with sleep := b }
      ∧ t.emitted = s.emitted ++ [ccw s.squareD3Swap (packCiv { s.ds with sleep := b })]
      ∧ t.chip.clockOff = b ∧ t.chip.dacOff = b ∧ t.chip.sleeping = b ∧ t.fault = s.fault ∧ t.program = s.program

/-- R127: Reset emits 0x0100 (decision D12) and does not write the Device State (decision
D22). -/
def Obligations.ResetEmitsTheLiteralWord : Prop :=
  ∀ s : State, s.fault.code = .none →
    ∃ t : State, execOp .reset s = .next t ∧ t.ds = s.ds ∧ t.emitted = s.emitted ++ [0x0100]
      ∧ t.chip.inReset = true ∧ t.fault = s.fault ∧ t.program = s.program

/-- R129, R31: SetOutputSource stores both selectors, SAME resolved to the frequency slot, and emits the
recomposed control word. -/
def Obligations.SetSourceSelectsBothSlots : Prop :=
  ∀ (s : State) (fs : Reg) (ps : SlotCode), s.fault.code = .none → ps ≠ .illegal →
    ∃ (t : State) (q : Reg), execOp (.setSrc fs.toSlot ps) s = .next t
      ∧ (ps = .same → q = fs) ∧ (ps ≠ .same → ps = q.toSlot)
      ∧ t.ds = { s.ds with fsel := fs, psel := q }
      ∧ t.emitted = s.emitted ++ [ccw s.squareD3Swap (packCiv t.ds)]
      ∧ t.fault = s.fault ∧ t.program = s.program

/-- R134 (which the spec marks as derived): the chip's reset bit. Every operation that emits a composed control word leaves D8 at
`not ds.outEn`; Reset sets it; SetPhase, IncrementPhase and SetWaveform on the other slot leave it. -/
def Obligations.ResetBitPersists : Prop :=
  ∀ (s t : State) (o : HostOp), execOp o s = .next t → t.fault.code = .none →
    match o with
    | .setFreq _ _ => t.chip.inReset = !t.ds.outEn
    | .incFreq _ _ => t.chip.inReset = !t.ds.outEn
    | .enable _ => t.chip.inReset = !t.ds.outEn
    | .sleep _ => t.chip.inReset = !t.ds.outEn
    | .setSrc _ _ => t.chip.inReset = !t.ds.outEn
    | .setWave x _ =>
      if x = s.ds.fsel.toSlot then t.chip.inReset = !t.ds.outEn else t.chip.inReset = s.chip.inReset
    | .reset => t.chip.inReset = true
    | .setPhase _ _ => t.chip.inReset = s.chip.inReset
    | .incPhase _ _ => t.chip.inReset = s.chip.inReset

/-- R135 (which the spec marks as derived): how many words each completed host operation emits. -/
def Obligations.WordsPerOperation : Prop :=
  ∀ (s t : State) (o : HostOp), execOp o s = .next t → t.fault.code = .none →
    t.emitted.length = s.emitted.length +
      match o with
      | .setFreq _ _ => 3
      | .incFreq _ _ => 3
      | .setPhase _ _ => 1
      | .incPhase _ _ => 1
      | .setWave x _ => if x = s.ds.fsel.toSlot then 1 else 0
      | .enable _ => 1
      | .sleep _ => 1
      | .setSrc _ _ => 1
      | .reset => 1

/-- R121, R131, R159: after SetFrequency on a chip in order, the chip's register holds the tuning word of
the stored frequency, its control register the live composition, and the chip is in order; the other
frequency register and the phase registers stay, unless the control word ends a sleep (I17, log entry
12). (That a chip which sleeps on takes the words as an awake one does is the model's choice, log entry
36.) -/
def Obligations.SetFrequencyProgramsTheChip : Prop :=
  ∀ (s : State) (r r' : Reg) (hz : Rat), s.fault.code = .none → s.chip.inOrder → r' ≠ r →
    ∃ t : State, execOp (.setFreq r.toSlot (.rat hz)) s = .next t
      ∧ t.chip.freq.get r = ftw s.ref (t.ds.freq.get r)
      ∧ t.chip.control = ccw s.squareD3Swap (packCiv s.ds) ∧ t.chip.inOrder
      ∧ (s.chip.sleeping = false ∨ s.ds.sleep = true →
          t.chip.freq.get r' = s.chip.freq.get r' ∧ t.chip.phase = s.chip.phase)

/-- R123, R62, R159, R164: after SetPhase on a chip in order, the chip's phase register holds the phase word
of the stored phase, and its other phase register and its frequency registers stay; in any state of the chip
its control register stays. (Out of order R34 leaves the registers open, log entry 18; that a sleeping chip
takes the word as an awake one does is the model's choice, log entry 36.) -/
def Obligations.SetPhaseProgramsTheChip : Prop :=
  ∀ (s : State) (r r' : Reg) (deg : Rat), s.fault.code = .none → r' ≠ r →
    ∃ t : State, execOp (.setPhase r.toSlot (.rat deg)) s = .next t
      ∧ t.chip.control = s.chip.control
      ∧ (s.chip.inOrder →
          t.chip.phase.get r = phw (t.ds.phase.get r) ∧ t.chip.phase.get r' = s.chip.phase.get r'
          ∧ t.chip.freq = s.chip.freq ∧ t.chip.inOrder)
end

