-- ==== Sys2Proof/Laws/Arith.lean ====
section
/-! SUPPORT. The specifications of the exact-arithmetic primitives. -/

namespace Sys2Proof.Machine

theorem floor_le (x : Rat) : (x.floor : Rat) ≤ x := Rat.floor_le x

theorem lt_floor_add_one (x : Rat) : x < (x.floor : Rat) + 1 := by
  exact_mod_cast Rat.lt_floor_add_one x

/-- The floored modulo lies in [0, m) (R11). -/
theorem floorMod_bounds {m : Rat} (hm : 0 < m) (x : Rat) : 0 ≤ floorMod x m ∧ floorMod x m < m := by
  have h1 := floor_le (x / m)
  have h2 := lt_floor_add_one (x / m)
  rw [le_div_iff₀ hm] at h1
  rw [div_lt_iff₀ hm] at h2
  unfold floorMod
  constructor <;> nlinarith

/-- Whole turns do not change the floored modulo (R91). -/
theorem floorMod_add_mul {m : Rat} (hm : m ≠ 0) (x : Rat) (k : Int) :
    floorMod (x + m * k) m = floorMod x m := by
  have h : (x + m * k) / m = x / m + (k : Int) := by field_simp
  unfold floorMod
  rw [h, Rat.floor_add_intCast]
  push_cast; ring

/-- PNORM lies in [0, 360) (R89). -/
theorem pnorm_bounds (p : Rat) : 0 ≤ pnorm p ∧ pnorm p < 360 :=
  floorMod_bounds (by norm_num [Config.phaseTurn]) p

theorem pnorm_add_turns (p : Rat) (k : Int) : pnorm (p + 360 * k) = pnorm p :=
  floorMod_add_mul (by norm_num [Config.phaseTurn]) p k

theorem pnorm_pnorm (p : Rat) : pnorm (pnorm p) = pnorm p := by
  have h : pnorm p = p + 360 * ((-((p / 360).floor) : Int) : Rat) := by
    simp only [pnorm, floorMod, Config.phaseTurn]; push_cast; ring
  conv_lhs => rw [h]
  exact pnorm_add_turns p _

/-- FCLAMP lies in the chip's range (R81). -/
theorem fclamp_bounds (f : Rat) : Config.fMin ≤ fclamp f ∧ fclamp f ≤ Config.fMax := by
  unfold fclamp
  constructor
  · exact le_min (le_max_right _ _) (by norm_num [Config.fMin, Config.fMax])
  · exact min_le_right _ _

/-- `round` is to nearest, ties away from zero (R11). -/
theorem roundAway_nearest (x : Rat) : NearestAway (roundAway x) x := by
  unfold NearestAway roundAway
  split
  · next h =>
    have h1 := floor_le (x + 1 / 2)
    have h2 := lt_floor_add_one (x + 1 / 2)
    generalize (x + 1 / 2).floor = n at *
    refine ⟨by rw [abs_le]; constructor <;> linarith, fun ht => ?_⟩
    have hx : (n : Rat) = x + 1 / 2 := by
      rcases abs_choice (x - n) with e | e <;> rw [e] at ht <;> linarith
    rw [hx, abs_of_nonneg h, abs_of_nonneg (by linarith)]; linarith
  · next h =>
    have h1 := floor_le (-x + 1 / 2)
    have h2 := lt_floor_add_one (-x + 1 / 2)
    generalize (-x + 1 / 2).floor = n at *
    have h0 : x < 0 := not_le.mp h
    push_cast
    refine ⟨by rw [abs_le]; constructor <;> linarith, fun ht => ?_⟩
    have hx : (n : Rat) = -x + 1 / 2 := by
      rcases abs_choice (x - -(n : Rat)) with e | e <;> rw [e] at ht <;> linarith
    rw [hx, abs_of_neg h0, abs_of_neg (by linarith)]; linarith

/-- The mask to `n` bits is the floored modulo (R82). -/
theorem toNat_ofInt (n : Nat) (i : Int) : ((BitVec.ofInt n i).toNat : Int) = i % 2 ^ n := by
  rw [BitVec.toNat_ofInt]
  have h : (0 : Int) < ((2 ^ n : Nat) : Int) := by positivity
  rw [Int.toNat_of_nonneg (Int.emod_nonneg _ (by omega))]
  push_cast; rfl

/-- `round` is monotone. -/
theorem roundAway_mono {x y : Rat} (h : x ≤ y) : roundAway x ≤ roundAway y := by
  by_contra hc
  push Not at hc
  obtain ⟨hx, tx⟩ := roundAway_nearest x
  obtain ⟨hy, ty⟩ := roundAway_nearest y
  rw [abs_le] at hx hy
  have h1 : (roundAway y : Rat) + 1 ≤ roundAway x := by exact_mod_cast hc
  generalize roundAway x = n at *
  generalize roundAway y = m at *
  obtain rfl : x = y := by linarith
  have t1 := tx (by rw [show x - n = -(1 / 2) by linarith]; norm_num [abs_neg])
  have t2 := ty (by rw [show x - m = 1 / 2 by linarith]; norm_num)
  rcases le_total 0 x with h0 | h0
  · rw [abs_of_nonneg h0] at t1 t2
    rcases le_or_gt 0 m with hm | hm
    · rw [abs_of_nonneg (by exact_mod_cast hm)] at t2; linarith
    · have : (m : Rat) ≤ -1 := by exact_mod_cast (show m ≤ -1 by omega)
      rw [abs_of_nonpos (by linarith)] at t2; linarith
  · rw [abs_of_nonpos h0] at t1 t2
    rcases le_or_gt n 0 with hn | hn
    · rw [abs_of_nonpos (by exact_mod_cast hn)] at t1; linarith
    · have : (1 : Rat) ≤ n := by exact_mod_cast (show 1 ≤ n by omega)
      linarith

/-- On the wrap-free interval `round` lands in a 28-bit word, so the mask changes nothing (R83). -/
theorem roundAway_range {x : Rat} (h1 : -1 / 2 < x) (h2 : x < 2 ^ 28 - 1 / 2) :
    0 ≤ roundAway x ∧ roundAway x < 2 ^ 28 := by
  obtain ⟨ha, hb⟩ := roundAway_nearest x
  generalize roundAway x = n at *
  rw [abs_le] at ha
  have a : (-1 : Rat) < n := by linarith
  have b : (n : Rat) ≤ 2 ^ 28 := by linarith
  have a' : -1 < n := by exact_mod_cast a
  have b' : n ≤ 2 ^ 28 := by exact_mod_cast b
  refine ⟨by omega, lt_of_le_of_ne b' fun h => ?_⟩
  subst h
  push_cast at *
  linarith

/-- On the wrap-free interval FTW is the rounded quotient itself. -/
theorem ftw_eq_round {ref f : Rat} (h1 : -1 / 2 < f * 2 ^ 28 / ref) (h2 : f * 2 ^ 28 / ref < 2 ^ 28 - 1 / 2) :
    ((ftw ref f).toNat : Int) = roundAway (f * 2 ^ 28 / ref) := by
  have e : ftwQuotient ref f = f * 2 ^ 28 / ref := by simp only [ftwQuotient, Config.ftwScale]; norm_num
  rw [ftw, toNat_ofInt, e]
  exact Int.emod_eq_of_lt (roundAway_range h1 h2).1 (roundAway_range h1 h2).2

/-- Reassembly as a sum. -/
theorem reassemble_toNat (lo up : Half) : (reassemble lo up).toNat = lo.toNat + 2 ^ 14 * up.toNat := by
  have h1 := lo.isLt
  have h2 := up.isLt
  unfold reassemble
  rw [BitVec.toNat_or]
  simp only [BitVec.truncate_eq_setWidth, BitVec.toNat_setWidth, BitVec.toNat_shiftLeft, Nat.shiftLeft_eq]
  rw [Nat.mod_eq_of_lt (show lo.toNat < 2 ^ 28 by omega), Nat.mod_eq_of_lt (show up.toNat < 2 ^ 28 by omega),
    Nat.mod_eq_of_lt (show up.toNat * 2 ^ 14 < 2 ^ 28 by omega), show up.toNat * 2 ^ 14 = 2 ^ 14 * up.toNat by ring,
    Nat.or_comm, ← Nat.two_pow_add_eq_or_of_lt h1]
  omega

/-- The halves of a word reassemble to it. -/
theorem reassemble_halves (w : Tuning) : reassemble (splitLo w) (splitUp w) = w := by
  apply BitVec.eq_of_toNat_eq
  have := w.isLt
  rw [reassemble_toNat]
  simp only [splitLo, splitUp, BitVec.extractLsb'_toNat, Nat.shiftRight_eq_div_pow]
  omega

end Sys2Proof.Machine
end

