-- ==== Sys2Proof/Laws/Decode.lean ====
section
/-! SUPPORT. The small lemmas of the codes and of the word readings, for the round trips. -/

namespace Sys2Proof

@[simp] theorem SlotCode.ofCode_code (x : SlotCode) : SlotCode.ofCode x.code = x := by cases x <;> rfl

@[simp] theorem SlotCode.code_ofCode (c : BitVec 2) : (SlotCode.ofCode c).code = c := by
  revert c; decide

@[simp] theorem Waveform.ofCode_code (x : Waveform) : Waveform.ofCode x.code = x := by cases x <;> rfl

@[simp] theorem Waveform.code_ofCode (c : BitVec 2) : (Waveform.ofCode c).code = c := by
  revert c; decide

@[simp] theorem Reg.ofBit_isReg1 (r : Reg) : Reg.ofBit r.isReg1 = r := by cases r <;> rfl

@[simp] theorem Reg.isReg1_ofBit (b : Bool) : (Reg.ofBit b).isReg1 = b := by cases b <;> rfl

/-- A bit field presented as an operand is read back unchanged (R57). -/
@[simp] theorem presentField_ofField (p : Position) {n : Nat} (v : BitVec n) :
    presentField p n (.ofField v) = .ok v := by
  simp [presentField, Number.ofField, v.isLt]

@[simp] theorem ctrlBits_controlWord (b28 : Bool) (b : CtrlBits) : ctrlBits (controlWord b28 b) = b := by
  obtain ⟨a, b, c, d, e, f, g, h⟩ := b
  revert a b c d e f g h b28; decide

theorem readWord_controlWord (b28 : Bool) (b : CtrlBits) :
    readWord (controlWord b28 b) = .control b28 b := by
  obtain ⟨a, b, c, d, e, f, g, h⟩ := b
  revert a b c d e f g h b28; decide

theorem headerClass_freqWord (r : Reg) (h : Half) : headerClass (freqWord r h) = .freq r := by
  have e : (freqWord r h).extractLsb' 14 2 = match r with | .reg0 => 1#2 | .reg1 => 2#2 := by
    cases r <;> · ext i hi; simp [freqWord, freqHeader]; interval_cases i <;> simp
  cases r <;> simp [headerClass, e]

theorem readWord_freqWord (r : Reg) (h : Half) : readWord (freqWord r h) = .freq r h := by
  have e : (freqWord r h).extractLsb' 0 14 = h := by
    cases r <;> · ext i hi; simp [freqWord, freqHeader]; interval_cases i <;> simp
  simp [readWord, headerClass_freqWord, e]

theorem readWord_phaseDataWord (r : Reg) (v : PhaseWord) :
    readWord (phaseDataWord r v) = .phase r v := by
  have e : (phaseDataWord r v).extractLsb' 14 2 = 3#2 := by
    cases r <;> · ext i hi; simp [phaseDataWord]; interval_cases i <;> simp
  have e12 : (phaseDataWord r v)[12] = false := by cases r <;> simp [phaseDataWord]
  have e13 : (phaseDataWord r v)[13] = r.isReg1 := by cases r <;> simp [phaseDataWord, Reg.isReg1]
  have ev : (phaseDataWord r v).extractLsb' 0 12 = v := by
    cases r <;> · ext i hi; simp [phaseDataWord]; interval_cases i <;> simp
  simp [readWord, headerClass, e, e12, e13, ev]
/-- The only operand that spells a bit field is its own value (R56, R57). -/
theorem presentField_ok {p : Position} {n : Nat} {x : Number} {v : BitVec n}
    (h : presentField p n x = .ok v) : x = .ofField v := by
  cases x with
  | rat q =>
    simp only [presentField] at h
    split at h
    · next hq =>
      injection h with h
      obtain ⟨h1, h2, h3⟩ := hq
      subst h
      simp only [Number.ofField, BitVec.toNat_ofNat, Nat.mod_eq_of_lt h3]
      congr 1
      apply Rat.ext
      · simpa using h2
      · simp [h1]
    · cases h
  | nan => cases h
  | inf b => cases h

/-- One bit-field operand: exactly the integers of the field decode (R56). -/
theorem map_field_iff {α : Type} {p : Position} {n : Nat} {x : Number} {f : BitVec n → α} {i : α} :
    (presentField p n x).map f = .ok i ↔ ∃ v : BitVec n, x = .rat (v.toNat : Rat) ∧ i = f v := by
  constructor
  · intro h
    cases hp : presentField p n x with
    | error e => rw [hp] at h; cases h
    | ok v => rw [hp] at h; injection h with h; exact ⟨v, presentField_ok hp, h.symm⟩
  · rintro ⟨v, rfl, rfl⟩
    have := presentField_ofField p v
    rw [Number.ofField] at this
    rw [this]; rfl

/-- Two bit-field operands. -/
theorem map_fields_iff {α : Type} {p q : Position} {n m : Nat} {x y : Number}
    {f : BitVec n → BitVec m → α} {i : α} :
    ((presentField p n x).bind fun v => (presentField q m y).map fun w => f v w) = .ok i ↔
      ∃ (v : BitVec n) (w : BitVec m), x = .rat (v.toNat : Rat) ∧ y = .rat (w.toNat : Rat) ∧ i = f v w := by
  constructor
  · intro h
    cases hp : presentField p n x with
    | error e => rw [hp] at h; cases h
    | ok v =>
      rw [hp] at h
      obtain ⟨w, hw, hi⟩ := map_field_iff.mp h
      exact ⟨v, w, presentField_ok hp, hw, hi⟩
  · rintro ⟨v, w, rfl, rfl, rfl⟩
    have := presentField_ofField p v
    rw [Number.ofField] at this
    rw [this]
    exact map_field_iff.mpr ⟨w, rfl, rfl⟩

/-- A quantifier over 2-bit codes is one over slots. -/
theorem exists_slotCode {P : BitVec 2 → SlotCode → Prop} :
    (∃ c, P c (SlotCode.ofCode c)) ↔ ∃ x : SlotCode, P x.code x :=
  ⟨fun ⟨c, h⟩ => ⟨SlotCode.ofCode c, by rwa [SlotCode.code_ofCode]⟩,
    fun ⟨x, h⟩ => ⟨x.code, by rwa [SlotCode.ofCode_code]⟩⟩

/-- A quantifier over 2-bit codes is one over waveforms. -/
theorem exists_waveformCode {P : BitVec 2 → Waveform → Prop} :
    (∃ c, P c (Waveform.ofCode c)) ↔ ∃ x : Waveform, P x.code x :=
  ⟨fun ⟨c, h⟩ => ⟨Waveform.ofCode c, by rwa [Waveform.code_ofCode]⟩,
    fun ⟨x, h⟩ => ⟨x.code, by rwa [Waveform.ofCode_code]⟩⟩

/-- A word read as a control word is that control word, bit for bit. -/
theorem readWord_control {w : Word} {b28 : Bool} {b : CtrlBits} (h : readWord w = .control b28 b) :
    w = controlWord b28 b := by
  unfold readWord at h
  split at h
  · next hc =>
    split at h
    · next hr =>
      injection h with h1 h2
      subst h1 h2
      have hh : w.extractLsb' 14 2 = 0 := by
        unfold headerClass at hc
        by_contra hn
        rw [if_neg hn] at hc
        split at hc <;> [cases hc; split at hc <;> cases hc]
      have e14 := congrArg (fun v => v.getLsbD 0) hh
      have e15 := congrArg (fun v => v.getLsbD 1) hh
      have e12 := congrArg (fun v => v.getLsbD 12) hr
      have e9 := congrArg (fun v => v.getLsbD 9) hr
      have e4 := congrArg (fun v => v.getLsbD 4) hr
      have e2 := congrArg (fun v => v.getLsbD 2) hr
      have e0 := congrArg (fun v => v.getLsbD 0) hr
      simp [reservedControlBits] at e14 e15 e12 e9 e4 e2 e0
      ext i hi
      simp [controlWord, bitAt, ctrlBits]
      interval_cases i <;> simp [*]
    · cases h
  · cases h
  · split at h <;> cases h

/-- A word read as a frequency half is that data word. -/
theorem readWord_freq {w : Word} {r : Reg} {h : Half} (e : readWord w = .freq r h) : w = freqWord r h := by
  unfold readWord at e
  split at e
  · split at e <;> cases e
  · next r' hc =>
    injection e with e1 e2
    subst e1 e2
    unfold headerClass at hc
    ext i hi
    split at hc
    · cases hc
    · split at hc
      · next hh =>
        injection hc with hc; subst hc
        have e14 := congrArg (fun v => v.getLsbD 0) hh
        have e15 := congrArg (fun v => v.getLsbD 1) hh
        simp at e14 e15
        simp [freqWord, freqHeader]
        interval_cases i <;> simp [*]
      · split at hc
        · next hh =>
          injection hc with hc; subst hc
          have e14 := congrArg (fun v => v.getLsbD 0) hh
          have e15 := congrArg (fun v => v.getLsbD 1) hh
          simp at e14 e15
          simp [freqWord, freqHeader]
          interval_cases i <;> simp [*]
        · cases hc
  · split at e <;> cases e

theorem headerCode_last (x : BitVec 2) (h0 : x ≠ 0) (h1 : x ≠ 1) (h2 : x ≠ 2) : x = 3 := by
  revert x; decide

/-- A word read as a phase word is that data word. -/
theorem readWord_phase {w : Word} {r : Reg} {v : PhaseWord} (e : readWord w = .phase r v) :
    w = phaseDataWord r v := by
  unfold readWord at e
  split at e
  · split at e <;> cases e
  · cases e
  · next hc =>
    split at e
    · cases e
    · next h12 =>
      injection e with e1 e2
      subst e1 e2
      have hh : w.extractLsb' 14 2 = 3 := by
        unfold headerClass at hc
        apply headerCode_last <;> intro hn <;> simp [hn] at hc
      have e14 := congrArg (fun v => v.getLsbD 0) hh
      have e15 := congrArg (fun v => v.getLsbD 1) hh
      simp at e14 e15 h12
      ext i hi
      cases h13 : w.getLsbD 13 <;> simp at h13 <;> simp [phaseDataWord, Reg.ofBit] <;> interval_cases i <;> simp [*]

end Sys2Proof
end

