-- ==== Sys2Proof/Laws/State.lean ====
section
/-! SUPPORT. One lemma per field of State per update, and the small lemmas of `Pair`. -/

namespace Sys2Proof

@[simp] theorem Pair.get_set_self {α : Type} (p : Pair α) (r : Reg) (x : α) : (p.set r x).get r = x := by
  cases r <;> rfl

theorem Pair.get_set_ne {α : Type} (p : Pair α) {r r' : Reg} (x : α) (h : r' ≠ r) :
    (p.set r x).get r' = p.get r' := by
  cases r <;> cases r' <;> first | rfl | exact absurd rfl h

namespace Machine

variable (s : State)

/-! ## deliver -/

@[simp] theorem State.deliver_ref (v : Result) :
    (s.deliver v).ref = s.ref := rfl
@[simp] theorem State.deliver_squareD3Swap (v : Result) :
    (s.deliver v).squareD3Swap = s.squareD3Swap := rfl
@[simp] theorem State.deliver_chipSelect (v : Result) :
    (s.deliver v).chipSelect = s.chipSelect := rfl
@[simp] theorem State.deliver_fault (v : Result) :
    (s.deliver v).fault = s.fault := rfl
@[simp] theorem State.deliver_ds (v : Result) :
    (s.deliver v).ds = s.ds := rfl
@[simp] theorem State.deliver_emitted (v : Result) :
    (s.deliver v).emitted = s.emitted := rfl
@[simp] theorem State.deliver_chip (v : Result) :
    (s.deliver v).chip = s.chip := rfl
@[simp] theorem State.deliver_results (v : Result) :
    (s.deliver v).results = s.results ++ [v] := rfl
@[simp] theorem State.deliver_names (v : Result) :
    (s.deliver v).names = s.names := rfl
@[simp] theorem State.deliver_program (v : Result) :
    (s.deliver v).program = s.program := rfl
@[simp] theorem State.deliver_draws (v : Result) :
    (s.deliver v).draws = s.draws := rfl

/-! ## transmit -/

@[simp] theorem State.transmit_ref (w : Word) :
    (s.transmit w).ref = s.ref := rfl
@[simp] theorem State.transmit_squareD3Swap (w : Word) :
    (s.transmit w).squareD3Swap = s.squareD3Swap := rfl
@[simp] theorem State.transmit_chipSelect (w : Word) :
    (s.transmit w).chipSelect = s.chipSelect := rfl
@[simp] theorem State.transmit_fault (w : Word) :
    (s.transmit w).fault = s.fault := rfl
@[simp] theorem State.transmit_ds (w : Word) :
    (s.transmit w).ds = s.ds := rfl
@[simp] theorem State.transmit_emitted (w : Word) :
    (s.transmit w).emitted = s.emitted ++ [w] := rfl
@[simp] theorem State.transmit_chip (w : Word) :
    (s.transmit w).chip = s.chip.take s.draws w := rfl
@[simp] theorem State.transmit_results (w : Word) :
    (s.transmit w).results = s.results := rfl
@[simp] theorem State.transmit_names (w : Word) :
    (s.transmit w).names = s.names := rfl
@[simp] theorem State.transmit_program (w : Word) :
    (s.transmit w).program = s.program := rfl
@[simp] theorem State.transmit_draws (w : Word) :
    (s.transmit w).draws = s.draws + 1 := rfl

/-! ## setFreq -/

@[simp] theorem State.setFreq_ref (r : Reg) (f : Rat) :
    (s.setFreq r f).ref = s.ref := rfl
@[simp] theorem State.setFreq_squareD3Swap (r : Reg) (f : Rat) :
    (s.setFreq r f).squareD3Swap = s.squareD3Swap := rfl
@[simp] theorem State.setFreq_chipSelect (r : Reg) (f : Rat) :
    (s.setFreq r f).chipSelect = s.chipSelect := rfl
@[simp] theorem State.setFreq_fault (r : Reg) (f : Rat) :
    (s.setFreq r f).fault = s.fault := rfl
@[simp] theorem State.setFreq_ds (r : Reg) (f : Rat) :
    (s.setFreq r f).ds = { s.ds with freq := s.ds.freq.set r f } := rfl
@[simp] theorem State.setFreq_emitted (r : Reg) (f : Rat) :
    (s.setFreq r f).emitted = s.emitted := rfl
@[simp] theorem State.setFreq_chip (r : Reg) (f : Rat) :
    (s.setFreq r f).chip = s.chip := rfl
@[simp] theorem State.setFreq_results (r : Reg) (f : Rat) :
    (s.setFreq r f).results = s.results := rfl
@[simp] theorem State.setFreq_names (r : Reg) (f : Rat) :
    (s.setFreq r f).names = s.names := rfl
@[simp] theorem State.setFreq_program (r : Reg) (f : Rat) :
    (s.setFreq r f).program = s.program := rfl
@[simp] theorem State.setFreq_draws (r : Reg) (f : Rat) :
    (s.setFreq r f).draws = s.draws := rfl

/-! ## setPhase -/

@[simp] theorem State.setPhase_ref (r : Reg) (p : Rat) :
    (s.setPhase r p).ref = s.ref := rfl
@[simp] theorem State.setPhase_squareD3Swap (r : Reg) (p : Rat) :
    (s.setPhase r p).squareD3Swap = s.squareD3Swap := rfl
@[simp] theorem State.setPhase_chipSelect (r : Reg) (p : Rat) :
    (s.setPhase r p).chipSelect = s.chipSelect := rfl
@[simp] theorem State.setPhase_fault (r : Reg) (p : Rat) :
    (s.setPhase r p).fault = s.fault := rfl
@[simp] theorem State.setPhase_ds (r : Reg) (p : Rat) :
    (s.setPhase r p).ds = { s.ds with phase := s.ds.phase.set r p } := rfl
@[simp] theorem State.setPhase_emitted (r : Reg) (p : Rat) :
    (s.setPhase r p).emitted = s.emitted := rfl
@[simp] theorem State.setPhase_chip (r : Reg) (p : Rat) :
    (s.setPhase r p).chip = s.chip := rfl
@[simp] theorem State.setPhase_results (r : Reg) (p : Rat) :
    (s.setPhase r p).results = s.results := rfl
@[simp] theorem State.setPhase_names (r : Reg) (p : Rat) :
    (s.setPhase r p).names = s.names := rfl
@[simp] theorem State.setPhase_program (r : Reg) (p : Rat) :
    (s.setPhase r p).program = s.program := rfl
@[simp] theorem State.setPhase_draws (r : Reg) (p : Rat) :
    (s.setPhase r p).draws = s.draws := rfl

/-! ## setWave -/

@[simp] theorem State.setWave_ref (r : Reg) (wf : Waveform) :
    (s.setWave r wf).ref = s.ref := rfl
@[simp] theorem State.setWave_squareD3Swap (r : Reg) (wf : Waveform) :
    (s.setWave r wf).squareD3Swap = s.squareD3Swap := rfl
@[simp] theorem State.setWave_chipSelect (r : Reg) (wf : Waveform) :
    (s.setWave r wf).chipSelect = s.chipSelect := rfl
@[simp] theorem State.setWave_fault (r : Reg) (wf : Waveform) :
    (s.setWave r wf).fault = s.fault := rfl
@[simp] theorem State.setWave_ds (r : Reg) (wf : Waveform) :
    (s.setWave r wf).ds = { s.ds with wave := s.ds.wave.set r wf } := rfl
@[simp] theorem State.setWave_emitted (r : Reg) (wf : Waveform) :
    (s.setWave r wf).emitted = s.emitted := rfl
@[simp] theorem State.setWave_chip (r : Reg) (wf : Waveform) :
    (s.setWave r wf).chip = s.chip := rfl
@[simp] theorem State.setWave_results (r : Reg) (wf : Waveform) :
    (s.setWave r wf).results = s.results := rfl
@[simp] theorem State.setWave_names (r : Reg) (wf : Waveform) :
    (s.setWave r wf).names = s.names := rfl
@[simp] theorem State.setWave_program (r : Reg) (wf : Waveform) :
    (s.setWave r wf).program = s.program := rfl
@[simp] theorem State.setWave_draws (r : Reg) (wf : Waveform) :
    (s.setWave r wf).draws = s.draws := rfl

/-! ## setOutEn -/

@[simp] theorem State.setOutEn_ref (b : Bool) :
    (s.setOutEn b).ref = s.ref := rfl
@[simp] theorem State.setOutEn_squareD3Swap (b : Bool) :
    (s.setOutEn b).squareD3Swap = s.squareD3Swap := rfl
@[simp] theorem State.setOutEn_chipSelect (b : Bool) :
    (s.setOutEn b).chipSelect = s.chipSelect := rfl
@[simp] theorem State.setOutEn_fault (b : Bool) :
    (s.setOutEn b).fault = s.fault := rfl
@[simp] theorem State.setOutEn_ds (b : Bool) :
    (s.setOutEn b).ds = { s.ds with outEn := b } := rfl
@[simp] theorem State.setOutEn_emitted (b : Bool) :
    (s.setOutEn b).emitted = s.emitted := rfl
@[simp] theorem State.setOutEn_chip (b : Bool) :
    (s.setOutEn b).chip = s.chip := rfl
@[simp] theorem State.setOutEn_results (b : Bool) :
    (s.setOutEn b).results = s.results := rfl
@[simp] theorem State.setOutEn_names (b : Bool) :
    (s.setOutEn b).names = s.names := rfl
@[simp] theorem State.setOutEn_program (b : Bool) :
    (s.setOutEn b).program = s.program := rfl
@[simp] theorem State.setOutEn_draws (b : Bool) :
    (s.setOutEn b).draws = s.draws := rfl

/-! ## setSleep -/

@[simp] theorem State.setSleep_ref (b : Bool) :
    (s.setSleep b).ref = s.ref := rfl
@[simp] theorem State.setSleep_squareD3Swap (b : Bool) :
    (s.setSleep b).squareD3Swap = s.squareD3Swap := rfl
@[simp] theorem State.setSleep_chipSelect (b : Bool) :
    (s.setSleep b).chipSelect = s.chipSelect := rfl
@[simp] theorem State.setSleep_fault (b : Bool) :
    (s.setSleep b).fault = s.fault := rfl
@[simp] theorem State.setSleep_ds (b : Bool) :
    (s.setSleep b).ds = { s.ds with sleep := b } := rfl
@[simp] theorem State.setSleep_emitted (b : Bool) :
    (s.setSleep b).emitted = s.emitted := rfl
@[simp] theorem State.setSleep_chip (b : Bool) :
    (s.setSleep b).chip = s.chip := rfl
@[simp] theorem State.setSleep_results (b : Bool) :
    (s.setSleep b).results = s.results := rfl
@[simp] theorem State.setSleep_names (b : Bool) :
    (s.setSleep b).names = s.names := rfl
@[simp] theorem State.setSleep_program (b : Bool) :
    (s.setSleep b).program = s.program := rfl
@[simp] theorem State.setSleep_draws (b : Bool) :
    (s.setSleep b).draws = s.draws := rfl

/-! ## setSource -/

@[simp] theorem State.setSource_ref (fs ps : Reg) :
    (s.setSource fs ps).ref = s.ref := rfl
@[simp] theorem State.setSource_squareD3Swap (fs ps : Reg) :
    (s.setSource fs ps).squareD3Swap = s.squareD3Swap := rfl
@[simp] theorem State.setSource_chipSelect (fs ps : Reg) :
    (s.setSource fs ps).chipSelect = s.chipSelect := rfl
@[simp] theorem State.setSource_fault (fs ps : Reg) :
    (s.setSource fs ps).fault = s.fault := rfl
@[simp] theorem State.setSource_ds (fs ps : Reg) :
    (s.setSource fs ps).ds = { s.ds with fsel := fs, psel := ps } := rfl
@[simp] theorem State.setSource_emitted (fs ps : Reg) :
    (s.setSource fs ps).emitted = s.emitted := rfl
@[simp] theorem State.setSource_chip (fs ps : Reg) :
    (s.setSource fs ps).chip = s.chip := rfl
@[simp] theorem State.setSource_results (fs ps : Reg) :
    (s.setSource fs ps).results = s.results := rfl
@[simp] theorem State.setSource_names (fs ps : Reg) :
    (s.setSource fs ps).names = s.names := rfl
@[simp] theorem State.setSource_program (fs ps : Reg) :
    (s.setSource fs ps).program = s.program := rfl
@[simp] theorem State.setSource_draws (fs ps : Reg) :
    (s.setSource fs ps).draws = s.draws := rfl

/-! ## bindNames -/

@[simp] theorem State.bindNames_ref (into : List Name) (n : Nat) :
    (s.bindNames into n).ref = s.ref := rfl
@[simp] theorem State.bindNames_squareD3Swap (into : List Name) (n : Nat) :
    (s.bindNames into n).squareD3Swap = s.squareD3Swap := rfl
@[simp] theorem State.bindNames_chipSelect (into : List Name) (n : Nat) :
    (s.bindNames into n).chipSelect = s.chipSelect := rfl
@[simp] theorem State.bindNames_fault (into : List Name) (n : Nat) :
    (s.bindNames into n).fault = s.fault := rfl
@[simp] theorem State.bindNames_ds (into : List Name) (n : Nat) :
    (s.bindNames into n).ds = s.ds := rfl
@[simp] theorem State.bindNames_emitted (into : List Name) (n : Nat) :
    (s.bindNames into n).emitted = s.emitted := rfl
@[simp] theorem State.bindNames_chip (into : List Name) (n : Nat) :
    (s.bindNames into n).chip = s.chip := rfl
@[simp] theorem State.bindNames_results (into : List Name) (n : Nat) :
    (s.bindNames into n).results = s.results := rfl
@[simp] theorem State.bindNames_names (into : List Name) (n : Nat) :
    (s.bindNames into n).names = into.zip ((s.results.drop n).flatMap Result.values) ++ s.names := rfl
@[simp] theorem State.bindNames_program (into : List Name) (n : Nat) :
    (s.bindNames into n).program = s.program := rfl
@[simp] theorem State.bindNames_draws (into : List Name) (n : Nat) :
    (s.bindNames into n).draws = s.draws := rfl

/-! ## Several results, several words -/

theorem State.deliverAll_eq (vs : List Result) : s.deliverAll vs = { s with results := s.results ++ vs } := by
  induction vs generalizing s with
  | nil => simp [State.deliverAll]
  | cons v vs ih => simpa [State.deliverAll, State.deliver] using ih (s.deliver v)

@[simp] theorem State.deliverAll_ref (vs : List Result) : (s.deliverAll vs).ref = s.ref := by
  rw [State.deliverAll_eq]
@[simp] theorem State.deliverAll_squareD3Swap (vs : List Result) : (s.deliverAll vs).squareD3Swap = s.squareD3Swap := by
  rw [State.deliverAll_eq]
@[simp] theorem State.deliverAll_chipSelect (vs : List Result) : (s.deliverAll vs).chipSelect = s.chipSelect := by
  rw [State.deliverAll_eq]
@[simp] theorem State.deliverAll_fault (vs : List Result) : (s.deliverAll vs).fault = s.fault := by
  rw [State.deliverAll_eq]
@[simp] theorem State.deliverAll_ds (vs : List Result) : (s.deliverAll vs).ds = s.ds := by
  rw [State.deliverAll_eq]
@[simp] theorem State.deliverAll_emitted (vs : List Result) : (s.deliverAll vs).emitted = s.emitted := by
  rw [State.deliverAll_eq]
@[simp] theorem State.deliverAll_chip (vs : List Result) : (s.deliverAll vs).chip = s.chip := by
  rw [State.deliverAll_eq]
@[simp] theorem State.deliverAll_results (vs : List Result) : (s.deliverAll vs).results = s.results ++ vs := by
  rw [State.deliverAll_eq]
@[simp] theorem State.deliverAll_names (vs : List Result) : (s.deliverAll vs).names = s.names := by
  rw [State.deliverAll_eq]
@[simp] theorem State.deliverAll_program (vs : List Result) : (s.deliverAll vs).program = s.program := by
  rw [State.deliverAll_eq]
@[simp] theorem State.deliverAll_draws (vs : List Result) : (s.deliverAll vs).draws = s.draws := by
  rw [State.deliverAll_eq]

@[simp] theorem State.transmitAll_ref (ws : List Word) : (s.transmitAll ws).ref = s.ref := by
  induction ws generalizing s with
  | nil => simp [State.transmitAll]
  | cons w ws ih => have h := ih (s.transmit w); simp [State.transmitAll] at h ⊢; rw [h]
@[simp] theorem State.transmitAll_squareD3Swap (ws : List Word) : (s.transmitAll ws).squareD3Swap = s.squareD3Swap := by
  induction ws generalizing s with
  | nil => simp [State.transmitAll]
  | cons w ws ih => have h := ih (s.transmit w); simp [State.transmitAll] at h ⊢; rw [h]
@[simp] theorem State.transmitAll_chipSelect (ws : List Word) : (s.transmitAll ws).chipSelect = s.chipSelect := by
  induction ws generalizing s with
  | nil => simp [State.transmitAll]
  | cons w ws ih => have h := ih (s.transmit w); simp [State.transmitAll] at h ⊢; rw [h]
@[simp] theorem State.transmitAll_fault (ws : List Word) : (s.transmitAll ws).fault = s.fault := by
  induction ws generalizing s with
  | nil => simp [State.transmitAll]
  | cons w ws ih => have h := ih (s.transmit w); simp [State.transmitAll] at h ⊢; rw [h]
@[simp] theorem State.transmitAll_ds (ws : List Word) : (s.transmitAll ws).ds = s.ds := by
  induction ws generalizing s with
  | nil => simp [State.transmitAll]
  | cons w ws ih => have h := ih (s.transmit w); simp [State.transmitAll] at h ⊢; rw [h]
@[simp] theorem State.transmitAll_emitted (ws : List Word) : (s.transmitAll ws).emitted = s.emitted ++ ws := by
  induction ws generalizing s with
  | nil => simp [State.transmitAll]
  | cons w ws ih => have h := ih (s.transmit w); simp [State.transmitAll] at h ⊢; rw [h]
@[simp] theorem State.transmitAll_results (ws : List Word) : (s.transmitAll ws).results = s.results := by
  induction ws generalizing s with
  | nil => simp [State.transmitAll]
  | cons w ws ih => have h := ih (s.transmit w); simp [State.transmitAll] at h ⊢; rw [h]
@[simp] theorem State.transmitAll_names (ws : List Word) : (s.transmitAll ws).names = s.names := by
  induction ws generalizing s with
  | nil => simp [State.transmitAll]
  | cons w ws ih => have h := ih (s.transmit w); simp [State.transmitAll] at h ⊢; rw [h]
@[simp] theorem State.transmitAll_program (ws : List Word) : (s.transmitAll ws).program = s.program := by
  induction ws generalizing s with
  | nil => simp [State.transmitAll]
  | cons w ws ih => have h := ih (s.transmit w); simp [State.transmitAll] at h ⊢; rw [h]
@[simp] theorem State.transmitAll_draws (ws : List Word) : (s.transmitAll ws).draws = s.draws + ws.length := by
  induction ws generalizing s with
  | nil => simp [State.transmitAll]
  | cons w ws ih => have h := ih (s.transmit w); simp [State.transmitAll] at h ⊢; rw [h]; omega

/-! ## emitControl -/

@[simp] theorem State.emitControl_ref : s.emitControl.ref = s.ref := rfl
@[simp] theorem State.emitControl_squareD3Swap : s.emitControl.squareD3Swap = s.squareD3Swap := rfl
@[simp] theorem State.emitControl_chipSelect : s.emitControl.chipSelect = s.chipSelect := rfl
@[simp] theorem State.emitControl_fault : s.emitControl.fault = s.fault := rfl
@[simp] theorem State.emitControl_ds : s.emitControl.ds = s.ds := rfl
@[simp] theorem State.emitControl_emitted : s.emitControl.emitted = s.emitted ++ [s.controlWord] := rfl
@[simp] theorem State.emitControl_chip : s.emitControl.chip = s.chip.take s.draws s.controlWord := rfl
@[simp] theorem State.emitControl_results : s.emitControl.results = s.results ++ [.word s.controlWord] := rfl
@[simp] theorem State.emitControl_names : s.emitControl.names = s.names := rfl
@[simp] theorem State.emitControl_program : s.emitControl.program = s.program := rfl
@[simp] theorem State.emitControl_draws : s.emitControl.draws = s.draws + 1 := rfl

/-! ## Readiness -/

theorem State.ready_iff : s.ready = true ↔ s.fault.code = .none := by simp [State.ready]

end Machine

end Sys2Proof
end

