-- ==== Sys2Proof/Laws/Chip.lean ====
section
/-! SUPPORT. The chip's taking of the words the block makes. -/

namespace Sys2Proof.Machine

theorem Chip.take_controlWord (n : Nat) (b28 : Bool) (b : CtrlBits) (c : Chip) :
    c.take n (controlWord b28 b) = c.takeControl n (controlWord b28 b) b28 := by
  simp [Chip.take, readWord_controlWord]

theorem Chip.take_freqWord (n : Nat) (r : Reg) (h : Half) (c : Chip) :
    c.take n (freqWord r h) = c.takeFreq n r h := by
  simp [Chip.take, readWord_freqWord]

theorem Chip.take_phaseDataWord (n : Nat) (r : Reg) (v : PhaseWord) (c : Chip) :
    c.take n (phaseDataWord r v) = c.takePhase n r v := by
  simp [Chip.take, readWord_phaseDataWord]

theorem Chip.take_resetOnlyWord (n : Nat) (c : Chip) :
    c.take n resetOnlyWord = c.takeControl n resetOnlyWord false := rfl

/-- The reset and sleep bits of an encoded control word are its fields. -/
theorem controlWord_modeBits (b28 : Bool) (b : CtrlBits) :
    wakeWord (controlWord b28 b) = (!b.sleep1 && !b.sleep12)
    ∧ (controlWord b28 b).getLsbD 8 = b.reset ∧ (controlWord b28 b).getLsbD 7 = b.sleep1
    ∧ (controlWord b28 b).getLsbD 6 = b.sleep12 := by
  obtain ⟨f, p, r, s, t, o, d, m⟩ := b
  revert f p r s t o d m b28
  decide

@[simp] theorem Chip.takeControl_control (n : Nat) (w : Word) (b28 : Bool) (c : Chip) :
    (c.takeControl n w b28).control = w := rfl

@[simp] theorem Chip.takeControl_last (n : Nat) (w : Word) (b28 : Bool) (c : Chip) :
    (c.takeControl n w b28).last = .control := rfl

@[simp] theorem Chip.takeControl_sleeping (n : Nat) (w : Word) (b28 : Bool) (c : Chip) :
    (c.takeControl n w b28).sleeping = (sleepWord w || (c.sleeping && !wakeWord w)) := rfl

/-- A control word that ends no sleep leaves the phase registers. -/
theorem Chip.takeControl_phase {n : Nat} {w : Word} {b28 : Bool} {c : Chip} (h : c.wakes w = false) :
    (c.takeControl n w b28).phase = c.phase := by
  simp [Chip.takeControl, h]

/-- A control word that ends no sleep and splits no halves leaves the frequency registers. -/
theorem Chip.takeControl_freq {n : Nat} {w : Word} {b28 : Bool} {c : Chip} (h : c.wakes w = false)
    (he : c.expects.betweenHalves = false) : (c.takeControl n w b28).freq = c.freq := by
  simp [Chip.takeControl, h, he]

theorem Chip.inOrder.not_betweenHalves {c : Chip} (h : c.inOrder) : c.expects.betweenHalves = false := by
  rcases h with h | h <;> rw [h] <;> rfl

theorem Expects.not_betweenHalves {e : Expects} (h : ∀ r lo, e ≠ .upper r lo) : e.betweenHalves = false := by
  cases e with
  | upper r lo => exact absurd rfl (h r lo)
  | idle | lower | broken => rfl

/-- Right after a control word the chip is not between two halves. -/
theorem Chip.takeControl_betweenHalves (n : Nat) (w : Word) (b28 : Bool) (c : Chip) :
    (c.takeControl n w b28).expects.betweenHalves = false := by
  simp only [Chip.takeControl]
  cases c.expects <;> cases b28 <;> rfl

/-- A control word that was just taken finds no sleep to end. -/
theorem Chip.takeControl_wakes (n : Nat) (w : Word) (b28 : Bool) (c : Chip) :
    (c.takeControl n w b28).wakes w = false := by
  simp only [Chip.wakes, Chip.takeControl_sleeping, sleepWord, wakeWord]
  cases w.getLsbD 7 <;> cases w.getLsbD 6 <;> simp

/-- Taking a control word a second time changes nothing (R47). -/
theorem Chip.takeControl_twice (m n : Nat) (w : Word) (b28 : Bool) (c : Chip) :
    (c.takeControl m w b28).takeControl n w b28 = c.takeControl m w b28 := by
  have hf := Chip.takeControl_freq (n := n) (b28 := b28) (Chip.takeControl_wakes m w b28 c)
    (Chip.takeControl_betweenHalves m w b28 c)
  have hp := Chip.takeControl_phase (n := n) (b28 := b28) (Chip.takeControl_wakes m w b28 c)
  have he : ((c.takeControl m w b28).takeControl n w b28).expects = (c.takeControl m w b28).expects := by
    simp only [Chip.takeControl]
    cases c.expects <;> cases b28 <;> rfl
  have hs : ((c.takeControl m w b28).takeControl n w b28).sleeping = (c.takeControl m w b28).sleeping := by
    simp only [Chip.takeControl_sleeping]
    cases sleepWord w <;> cases c.sleeping <;> cases wakeWord w <;> rfl
  generalize hd : c.takeControl m w b28 = d at *
  generalize hd' : d.takeControl n w b28 = d' at *
  have hc : d'.control = d.control := by subst hd'; subst hd; rfl
  have hl : d'.last = d.last := by subst hd'; subst hd; rfl
  cases d'
  cases d
  simp_all

@[simp] theorem Chip.takeFreq_control (n : Nat) (r : Reg) (h : Half) (c : Chip) :
    (c.takeFreq n r h).control = c.control := by
  unfold Chip.takeFreq
  split <;> [rfl; (split <;> rfl); rfl; rfl]

@[simp] theorem Chip.takePhase_control (n : Nat) (r : Reg) (v : PhaseWord) (c : Chip) :
    (c.takePhase n r v).control = c.control := by
  unfold Chip.takePhase
  split <;> rfl

@[simp] theorem Chip.takePhase_last (n : Nat) (r : Reg) (v : PhaseWord) (c : Chip) :
    (c.takePhase n r v).last = .phase := by
  unfold Chip.takePhase
  split <;> rfl

/-- Everything a phase word does to the registers of a chip in order. -/
theorem Chip.takePhase_inOrder_registers {c : Chip} (h : c.inOrder) (n : Nat) (r : Reg) (v : PhaseWord) :
    (c.takePhase n r v).phase = c.phase.set r v ∧ (c.takePhase n r v).freq = c.freq := by
  rcases h with h | h <;> simp [Chip.takePhase, h]

/-- A control word with D13 primes a chip that is in order. -/
theorem Chip.takeControl_primes {c : Chip} (h : c.inOrder) (n : Nat) (w : Word) :
    (c.takeControl n w true).expects = .lower := by
  rcases h with h | h <;> simp [Chip.takeControl, h]

theorem Chip.takeControl_inOrder {c : Chip} (h : c.inOrder) (n : Nat) (w : Word) (b28 : Bool) :
    (c.takeControl n w b28).inOrder := by
  rcases h with h | h <;> cases b28 <;> simp [Chip.inOrder, Chip.takeControl, h]

theorem Chip.takePhase_inOrder {c : Chip} (h : c.inOrder) (n : Nat) (r : Reg) (v : PhaseWord) :
    (c.takePhase n r v).inOrder := by
  rcases h with h | h <;> simp [Chip.inOrder, Chip.takePhase, h]

/-- Everything two frequency halves for one register do to a primed chip. -/
theorem Chip.takeFreq_twice {c : Chip} (h : c.expects = .lower) (n m : Nat) (r : Reg) (lo up : Half) :
    ((c.takeFreq n r lo).takeFreq m r up).freq.get r = reassemble lo up
    ∧ (∀ r', r' ≠ r → ((c.takeFreq n r lo).takeFreq m r up).freq.get r' = c.freq.get r')
    ∧ ((c.takeFreq n r lo).takeFreq m r up).phase = c.phase
    ∧ ((c.takeFreq n r lo).takeFreq m r up).control = c.control
    ∧ ((c.takeFreq n r lo).takeFreq m r up).expects = .idle := by
  simp only [Chip.takeFreq, h, if_true]
  simp only [Pair.get_set_self, and_true, true_and]
  intro r' hr
  simp [Pair.get_set_ne _ _ hr]

/-- The row that carries a frequency half hands its word over. -/
theorem exec_freqInstr {s : State} (h : s.fault.code = .none) (r : Reg) (x : Half) :
    exec (freqInstr r x) s = .next (s.transmit (freqWord r x)) := by
  cases r <;> simp [freqInstr, exec, execFreq0, execFreq1, whenReady, State.ready, h]

/-- The row that carries a phase word hands its word over. -/
theorem exec_phaseInstr {s : State} (h : s.fault.code = .none) (r : Reg) (v : PhaseWord) :
    exec (phaseInstr r v) s = .next (s.transmit (phaseDataWord r v)) := by
  cases r <;> simp [phaseInstr, exec, execPhase0, execPhase1, whenReady, State.ready, h]

end Sys2Proof.Machine
end

