-- ==== Sys2Proof/Laws/Composer.lean ====
section
/-! SUPPORT. The composer's result and the chip's taking of it. -/

namespace Sys2Proof.Machine

/-- A property of every civ is a property of the 256 codes. -/
theorem forall_civ {P : Civ → Prop} (h : ∀ n < 256, P (BitVec.ofNat 8 n)) (c : Civ) : P c := by
  have := h c.toNat c.isLt
  simpa using this

/-- A composed word is the control word of its own named bits, with D13. -/
theorem ccw_eq_controlWord (swap : Bool) (c : Civ) :
    ccw swap c = controlWord true (ctrlBits (ccw swap c)) := by
  have key : ∀ n < 256, ∀ swap, ccw swap (BitVec.ofNat 8 n)
      = controlWord true (ctrlBits (ccw swap (BitVec.ofNat 8 n))) := by decide +kernel
  simpa using key c.toNat c.isLt swap

/-- The chip takes a composed word as a control word that primes it. -/
theorem Chip.take_ccw (n : Nat) (swap : Bool) (c : Civ) (d : Chip) :
    d.take n (ccw swap c) = d.takeControl n (ccw swap c) true := by
  conv_lhs => rw [ccw_eq_controlWord]
  rw [Chip.take_controlWord, ← ccw_eq_controlWord]

/-- The reset and sleep bits of the word composed from a Device State. -/
theorem ccw_modeBits (swap : Bool) (ds : DeviceState) :
    (ccw swap (packCiv ds)).getLsbD 8 = !ds.outEn ∧ (ccw swap (packCiv ds)).getLsbD 7 = ds.sleep
    ∧ (ccw swap (packCiv ds)).getLsbD 6 = ds.sleep
    ∧ wakeWord (ccw swap (packCiv ds)) = !ds.sleep := by
  obtain ⟨f, p, ⟨w0, w1⟩, o, s, a, b⟩ := ds
  simp only [packCiv]
  cases swap <;> cases w0 <;> cases w1 <;> cases o <;> cases s <;> cases a <;> cases b <;> decide

/-- A composed word depends on the selectors, the two flags and the active slot's waveform code. -/
theorem ccw_congr {swap : Bool} {c d : Civ} (h0 : c.getLsbD 0 = d.getLsbD 0)
    (h1 : c.getLsbD 1 = d.getLsbD 1) (h6 : c.getLsbD 6 = d.getLsbD 6) (h7 : c.getLsbD 7 = d.getLsbD 7)
    (hw : civWave c (civFsel c) = civWave d (civFsel d)) : ccw swap c = ccw swap d := by
  simp only [ccw, hw]
  simp only [civFsel, civPsel, civOutEn, civSleep, h0, h1, h6, h7]

/-- Handing over the live composition of `s`, from any state without a fault. -/
theorem exec_controlInstr {t : State} (h : t.fault.code = .none) (s : State) :
    exec (controlInstr s) t = .next (t.transmit s.controlWord) := by
  have e : controlWord true (ctrlBits s.controlWord) = s.controlWord := (ccw_eq_controlWord _ _).symm
  simp [controlInstr, exec, execCtrl, whenReady, State.ready, h, e]

theorem State.emitControl_chip_taken (s : State) :
    s.emitControl.chip = s.chip.takeControl s.draws s.controlWord true := by
  rw [State.emitControl_chip, State.controlWord, Chip.take_ccw]

end Sys2Proof.Machine
end

