-- ==== Sys2Proof/Laws/Ops.lean ====
section
/-! SUPPORT. One lemma per shared operation: everything it can answer. -/

namespace Sys2Proof.Machine

theorem whenReady_of_ready {s : State} (h : s.fault.code = .none) (k : Out) : whenReady s k = k := by
  simp [whenReady, State.ready, h]

theorem whenReady_of_faulted {s : State} (h : s.fault.code ≠ .none) (k : Out) :
    whenReady s k = .fault .faulted := by
  simp [whenReady, State.ready, h]

/-- The guard answers a next state only from a state without a fault. -/
theorem whenReady_next {s t : State} {k : Out} :
    whenReady s k = .next t ↔ s.fault.code = .none ∧ k = .next t := by
  by_cases h : s.fault.code = .none
  · simp [whenReady_of_ready h, h]
  · simp [whenReady_of_faulted h, h]

theorem raise_next {code : FaultCode} {info : FaultInfo} {s t : State} :
    raise code info s = .next t ↔ t = { s with fault := ⟨code, info⟩ } := by
  simp [raise, eq_comm]

/-- A numeric operand either goes on with its exact value or raises NONFINITE_INPUT. -/
theorem withNumber_cases (p : Position) (x : Number) (s : State) (k : Rat → Out) :
    (∃ q, x = .rat q ∧ withNumber p x s k = k q)
    ∨ (x.isFinite = false ∧ withNumber p x s k = raise .nonfiniteInput (.operand p) s) := by
  cases x with
  | rat q => exact .inl ⟨q, rfl, rfl⟩
  | nan => exact .inr ⟨rfl, rfl⟩
  | inf neg => exact .inr ⟨rfl, rfl⟩

/-- A slot operand either goes on with the register it names or raises ILLEGAL_SLOT. -/
theorem withRegister_cases (p : Position) (x : SlotCode) (s : State) (k : Reg → Out) :
    (∃ r : Reg, x = r.toSlot ∧ withRegister p x s k = k r)
    ∨ (x.isRegister = false ∧ withRegister p x s k = raise .illegalSlot (.slot p x) s) := by
  cases x with
  | reg0 => exact .inl ⟨.reg0, rfl, rfl⟩
  | reg1 => exact .inl ⟨.reg1, rfl, rfl⟩
  | same => exact .inr ⟨rfl, rfl⟩
  | illegal => exact .inr ⟨rfl, rfl⟩

@[simp] theorem withRegister_toSlot (p : Position) (r : Reg) (s : State) (k : Reg → Out) :
    withRegister p r.toSlot s k = k r := by cases r <;> rfl

/-- RESOLVE's operand B either goes on with a register or raises ILLEGAL_SLOT. -/
theorem withPhaseSelector_cases (p : Position) (x : SlotCode) (fs : Reg) (s : State) (k : Reg → Out) :
    (∃ q, resolveSlot fs x = some q ∧ withPhaseSelector p x fs s k = k q)
    ∨ (x = .illegal ∧ withPhaseSelector p x fs s k = raise .illegalSlot (.slot p x) s) := by
  cases x with
  | reg0 => exact .inl ⟨.reg0, rfl, rfl⟩
  | reg1 => exact .inl ⟨.reg1, rfl, rfl⟩
  | same => exact .inl ⟨fs, rfl, rfl⟩
  | illegal => exact .inr ⟨rfl, rfl⟩

/-- What `raise` may record while the machine runs: any code but NONE and BAD_REFERENCE. -/
def isRequestFault (code : FaultCode) : Prop :=
  code = .illegalOpsel ∨ code = .illegalSlot ∨ code = .nonfiniteInput

theorem withNumber_next {p : Position} {x : Number} {s t : State} {k : Rat → Out}
    (h : withNumber p x s k = .next t) :
    (∃ q, x = .rat q ∧ k q = .next t)
    ∨ t = { s with fault := ⟨.nonfiniteInput, .operand p⟩ } := by
  rcases withNumber_cases p x s k with ⟨q, hx, hk⟩ | ⟨_, hk⟩
  · exact .inl ⟨q, hx, hk ▸ h⟩
  · exact .inr (raise_next.mp (hk ▸ h))

theorem withRegister_next {p : Position} {x : SlotCode} {s t : State} {k : Reg → Out}
    (h : withRegister p x s k = .next t) :
    (∃ r : Reg, x = r.toSlot ∧ k r = .next t)
    ∨ t = { s with fault := ⟨.illegalSlot, .slot p x⟩ } := by
  rcases withRegister_cases p x s k with ⟨r, hx, hk⟩ | ⟨_, hk⟩
  · exact .inl ⟨r, hx, hk ▸ h⟩
  · exact .inr (raise_next.mp (hk ▸ h))

theorem withPhaseSelector_next {p : Position} {x : SlotCode} {fs : Reg} {s t : State} {k : Reg → Out}
    (h : withPhaseSelector p x fs s k = .next t) :
    (∃ q, resolveSlot fs x = some q ∧ k q = .next t)
    ∨ t = { s with fault := ⟨.illegalSlot, .slot p x⟩ } := by
  rcases withPhaseSelector_cases p x fs s k with ⟨q, hx, hk⟩ | ⟨_, hk⟩
  · exact .inl ⟨q, hx, hk ▸ h⟩
  · exact .inr (raise_next.mp (hk ▸ h))

end Sys2Proof.Machine
end

