-- ==== Sys2Proof/Laws/Exec.lean ====
section
/-! SUPPORT. Everything a next state of `exec` and of `execOp` can be. -/

namespace Sys2Proof.Machine

/-- The machine only recorded a request fault. -/
def Raised (s t : State) : Prop :=
  ∃ code info, isRequestFault code ∧ t = { s with fault := ⟨code, info⟩ }

theorem raised_illegalOpsel (s : State) (info : FaultInfo) :
    Raised s { s with fault := ⟨.illegalOpsel, info⟩ } := ⟨_, _, .inl rfl, rfl⟩

theorem raised_illegalSlot (s : State) (info : FaultInfo) :
    Raised s { s with fault := ⟨.illegalSlot, info⟩ } := ⟨_, _, .inr (.inl rfl), rfl⟩

theorem raised_nonfinite (s : State) (info : FaultInfo) :
    Raised s { s with fault := ⟨.nonfiniteInput, info⟩ } := ⟨_, _, .inr (.inr rfl), rfl⟩

/-- An instruction that completes ran from a state without a fault; a request delivered one result or
raised a fault, and an output word was handed to the transport. -/
theorem exec_next_cases {i : Instr} {s t : State} (h : exec i s = .next t) :
    s.fault.code = .none
    ∧ ((isOutputWord i = false ∧ ∃ v, t = s.deliver v)
      ∨ (isOutputWord i = true ∧ ∃ w, t = s.transmit w)
      ∨ (isOutputWord i = false ∧ Raised s t)) := by
  cases i <;>
    simp only [exec, execFclamp, execFtw, execW2f, execSplit, execRes, execPnorm, execPhw, execTagf,
      execTagp, execCcw, execResolve, execRstw, execIllegal0, execIllegalD, execIllegalE, execIllegalF,
      execCtrl, execRstWord, execFreq0, execFreq1, execPhase0, execPhase1, whenReady_next] at h <;>
    refine ⟨h.1, ?_⟩ <;> replace h := h.2
  case fclamp | ftw | pnorm | phw =>
    rcases withNumber_next h with ⟨q, _, hq⟩ | ht
    · injection hq with hq; exact .inl ⟨rfl, _, hq.symm⟩
    · exact .inr (.inr ⟨rfl, ht ▸ raised_nonfinite _ _⟩)
  case tagf | tagp =>
    rcases withRegister_next h with ⟨q, _, hq⟩ | ht
    · injection hq with hq; exact .inl ⟨rfl, _, hq.symm⟩
    · exact .inr (.inr ⟨rfl, ht ▸ raised_illegalSlot _ _⟩)
  case resolve =>
    rcases withRegister_next h with ⟨r, _, hr⟩ | ht
    · rcases withPhaseSelector_next hr with ⟨q, _, hq⟩ | ht
      · injection hq with hq; exact .inl ⟨rfl, _, hq.symm⟩
      · exact .inr (.inr ⟨rfl, ht ▸ raised_illegalSlot _ _⟩)
    · exact .inr (.inr ⟨rfl, ht ▸ raised_illegalSlot _ _⟩)
  case w2f | split | res | ccw | rstw => injection h with h; exact .inl ⟨rfl, _, h.symm⟩
  case illegal0 | illegalD | illegalE | illegalF =>
    exact .inr (.inr ⟨rfl, raise_next.mp h ▸ raised_illegalOpsel _ _⟩)
  case ctrl | rstWord | freq0 | freq1 | phase0 | phase1 =>
    injection h with h; exact .inr (.inl ⟨rfl, _, h.symm⟩)

/-- What a Write Sequencer operation that completed did: it raised a fault, or it is one of the seven
effects of R121 to R129. -/
theorem execOp_next_cases {o : HostOp} {s t : State} (h : execOp o s = .next t) :
    s.fault.code = .none
    ∧ (Raised s t
      ∨ (∃ r q, t = setFrequency r q s)
      ∨ (∃ r q, t = setPhaseDeg r q s)
      ∨ (∃ r wf, r = s.ds.fsel ∧ t = (s.setWave r wf).emitControl)
      ∨ (∃ r wf, r ≠ s.ds.fsel ∧ t = s.setWave r wf)
      ∨ (∃ b, t = (s.setOutEn b).emitControl)
      ∨ t = (s.deliver (.word rstw)).transmit rstw
      ∨ (∃ b, t = (s.setSleep b).emitControl)
      ∨ (∃ r q, t = ((s.deliver (.slot q)).setSource r q).emitControl)) := by
  cases o <;>
    simp only [execOp, execSetFreq, execIncFreq, execSetPhase, execIncPhase, execSetWave, execEnable,
      execReset, execSleep, execSetSrc, whenReady_next] at h <;>
    refine ⟨h.1, ?_⟩ <;> replace h := h.2
  case setFreq | incFreq =>
    rcases withRegister_next h with ⟨r, _, hr⟩ | ht
    · rcases withNumber_next hr with ⟨q, _, hq⟩ | ht
      · injection hq with hq; exact .inr (.inl ⟨_, _, hq.symm⟩)
      · exact .inl (ht ▸ raised_nonfinite _ _)
    · exact .inl (ht ▸ raised_illegalSlot _ _)
  case setPhase | incPhase =>
    rcases withRegister_next h with ⟨r, _, hr⟩ | ht
    · rcases withNumber_next hr with ⟨q, _, hq⟩ | ht
      · injection hq with hq; exact .inr (.inr (.inl ⟨_, _, hq.symm⟩))
      · exact .inl (ht ▸ raised_nonfinite _ _)
    · exact .inl (ht ▸ raised_illegalSlot _ _)
  case setWave x wf =>
    rcases withRegister_next h with ⟨r, _, hr⟩ | ht
    · by_cases hf : r = s.ds.fsel
      · rw [if_pos hf] at hr
        injection hr with hr; exact .inr (.inr (.inr (.inl ⟨_, _, hf, hr.symm⟩)))
      · rw [if_neg hf] at hr
        injection hr with hr; exact .inr (.inr (.inr (.inr (.inl ⟨_, _, hf, hr.symm⟩))))
    · exact .inl (ht ▸ raised_illegalSlot _ _)
  case enable b =>
    injection h with h; exact .inr (.inr (.inr (.inr (.inr (.inl ⟨b, h.symm⟩)))))
  case reset =>
    injection h with h; exact .inr (.inr (.inr (.inr (.inr (.inr (.inl h.symm))))))
  case sleep b =>
    injection h with h; exact .inr (.inr (.inr (.inr (.inr (.inr (.inr (.inl ⟨b, h.symm⟩)))))))
  case setSrc =>
    rcases withRegister_next h with ⟨r, _, hr⟩ | ht
    · rcases withPhaseSelector_next hr with ⟨q, _, hq⟩ | ht
      · injection hq with hq
        exact .inr (.inr (.inr (.inr (.inr (.inr (.inr (.inr ⟨_, _, hq.symm⟩)))))))
      · exact .inl (ht ▸ raised_illegalSlot _ _)
    · exact .inl (ht ▸ raised_illegalSlot _ _)

/-- `EMIT` of any word from a state without a fault hands exactly that word to the transport. -/
theorem execOtherWord_next {w : Word} {s t : State} :
    execOtherWord w s = .next t ↔ s.fault.code = .none ∧ t = s.transmit w := by
  rw [execOtherWord, whenReady_next]
  simp [eq_comm]

end Sys2Proof.Machine
end

