-- ==== Sys2Proof/Laws/PerInstr.lean ====
section
/-! SUPPORT. The statements made of every instruction, one lemma per constructor. -/

namespace Sys2Proof.Laws.RoundTrip

/-- Decoding an instruction's own spelling gives it back, with every operand. -/
def Statement (i : Instr) : Prop := decode (encode i) = .ok i

theorem fclamp (f : Number) : Statement (.fclamp f) := rfl
theorem ftw (f : Number) : Statement (.ftw f) := rfl
theorem w2f (w : Tuning) : Statement (.w2f w) := by
  simp [Statement, encode, mkRequest, decode, decodeRequest, Except.map]
theorem split (w : Tuning) : Statement (.split w) := by
  simp [Statement, encode, mkRequest, decode, decodeRequest, Except.map]
theorem res : Statement .res := rfl
theorem pnorm (p : Number) : Statement (.pnorm p) := rfl
theorem phw (p : Number) : Statement (.phw p) := rfl
theorem tagf (s : SlotCode) (h : Half) : Statement (.tagf s h) := by
  simp [Statement, encode, mkRequest, decode, decodeRequest, Except.map, Except.bind]
theorem tagp (s : SlotCode) (v : PhaseWord) : Statement (.tagp s v) := by
  simp [Statement, encode, mkRequest, decode, decodeRequest, Except.map, Except.bind]
theorem ccw (c : Civ) : Statement (.ccw c) := by
  simp [Statement, encode, mkRequest, decode, decodeRequest, Except.map]
theorem resolve (fs ps : SlotCode) : Statement (.resolve fs ps) := by
  simp [Statement, encode, mkRequest, decode, decodeRequest, Except.map, Except.bind]
theorem rstw : Statement .rstw := rfl
theorem illegal0 : Statement .illegal0 := rfl
theorem illegalD : Statement .illegalD := rfl
theorem illegalE : Statement .illegalE := rfl
theorem illegalF : Statement .illegalF := rfl
theorem ctrl (b : CtrlBits) : Statement (.ctrl b) := by
  simp [Statement, encode, decode, decodeWord, readWord_controlWord]
theorem rstWord : Statement .rstWord := by unfold Statement; decide
theorem freq0 (h : Half) : Statement (.freq0 h) := by
  simp [Statement, encode, decode, decodeWord, readWord_freqWord]
theorem freq1 (h : Half) : Statement (.freq1 h) := by
  simp [Statement, encode, decode, decodeWord, readWord_freqWord]
theorem phase0 (v : PhaseWord) : Statement (.phase0 v) := by
  simp [Statement, encode, decode, decodeWord, readWord_phaseDataWord]
theorem phase1 (v : PhaseWord) : Statement (.phase1 v) := by
  simp [Statement, encode, decode, decodeWord, readWord_phaseDataWord]

end Sys2Proof.Laws.RoundTrip
end

