-- ==== Sys2Proof/Laws/Program.lean ====
section
/-! SUPPORT. Everything a statement and a step can answer. -/

namespace Sys2Proof.Machine

/-- A literal operand is its value where the slot is used, and 0 where it is not. -/
theorem fetchArg_lit (u : Bool) (n : Number) (s : State) (k : Number → Out) :
    fetchArg u (.lit n) s k = k (if u then n else .rat 0) := by
  cases u <;> rfl

/-- An operand given by a bound name is the literal it is bound to. -/
theorem fetchArg_bound {x : Name} {n : Number} {s : State} (h : s.names.lookup x = some n) (u : Bool)
    (k : Number → Out) : fetchArg u (.name x) s k = fetchArg u (.lit n) s k := by
  cases u <;> simp [fetchArg, State.value?, h]

/-- An operand that denotes a number is fetched as that number's literal. -/
theorem fetchArg_denotes {s : State} {a : Arg} {x : Number} (h : s.denotes a x) (u : Bool)
    (k : Number → Out) : fetchArg u a s k = fetchArg u (.lit x) s k := by
  rcases h with rfl | ⟨n, rfl, hn⟩
  · rfl
  · exact fetchArg_bound hn u k

/-- Unused operand slots are ignored (R53). -/
theorem decodeRequest_unused (o : BitVec 4) (a b : Number) :
    decodeRequest ⟨o, if 1 ≤ opselArity o then a else .rat 0, if 2 ≤ opselArity o then b else .rat 0⟩
      = decodeRequest ⟨o, a, b⟩ := by
  obtain ⟨⟨n, hn⟩⟩ := o
  replace hn : n < 16 := hn
  interval_cases n <;> rfl

/-- Unused operand slots of a Write Sequencer operation are ignored (R70). -/
theorem decodeOp_unused (k : OpKind) (a b : Number) :
    decodeOp k (if 1 ≤ k.arity then a else .rat 0) (if 2 ≤ k.arity then b else .rat 0)
      = decodeOp k a b := by
  cases k <;> rfl

/-- A request triple decodes to a request. -/
theorem decodeRequest_isRequest {r : Request} {i : Instr} (h : decodeRequest r = .ok i) :
    isOutputWord i = false := by
  unfold decodeRequest at h
  split at h
  case h_4 | h_5 | h_11 => obtain ⟨_, _, rfl⟩ := map_field_iff.mp h; rfl
  case h_9 | h_10 | h_12 => obtain ⟨_, _, _, _, rfl⟩ := map_fields_iff.mp h; rfl
  all_goals (injection h with h; subst h; rfl)

/-- The row a word decodes to hands over that very word. -/
theorem exec_word {w : Word} {i : Instr} {s : State} (hf : s.fault.code = .none)
    (h : decodeWord w = .ok i) : exec i s = .next (s.transmit w) := by
  unfold decodeWord at h
  split at h
  · next e =>
    injection h with h; subst h
    rw [readWord_control e]; simp [exec, execCtrl, whenReady_of_ready hf]
  · split at h
    · next hw =>
      injection h with h; subst h
      rw [hw]; simp [exec, execRstWord, whenReady_of_ready hf, resetOnlyWord]
    · cases h
  · next e =>
    injection h with h; subst h
    rw [readWord_freq e]; simp [exec, execFreq0, whenReady_of_ready hf]
  · next e =>
    injection h with h; subst h
    rw [readWord_freq e]; simp [exec, execFreq1, whenReady_of_ready hf]
  · next e =>
    injection h with h; subst h
    rw [readWord_phase e]; simp [exec, execPhase0, whenReady_of_ready hf]
  · next e =>
    injection h with h; subst h
    rw [readWord_phase e]; simp [exec, execPhase1, whenReady_of_ready hf]
  · cases h

/-- `EMIT` of any word hands over that very word. -/
theorem execWord_eq {w : Word} {s : State} (hf : s.fault.code = .none) :
    execWord w s = .next (s.transmit w) := by
  unfold execWord
  split
  · next h => exact exec_word hf h
  · exact whenReady_of_ready hf _

theorem fetchArg_next {u : Bool} {x : Arg} {s t : State} {k : Number → Out}
    (h : fetchArg u x s k = .next t) : ∃ n, k n = .next t := by
  unfold fetchArg at h
  split at h
  · exact ⟨_, h⟩
  · exact ⟨_, h⟩
  · split at h
    · exact ⟨_, h⟩
    · cases h

theorem withDecoded_next {α : Type} {r : Except DecodeError α} {k : α → Out} {t : State}
    (h : withDecoded r k = .next t) : ∃ x, r = .ok x ∧ k x = .next t := by
  unfold withDecoded at h
  split at h
  · exact ⟨_, rfl, h⟩
  all_goals cases h

/-- A statement that completed was a request whose results were bound, a Write Sequencer operation, or a
word handed over. -/
theorem runStmt_next {x : Stmt} {s t : State} (hf : s.fault.code = .none) (h : runStmt x s = .next t) :
    (∃ i u into n, x.isContract = true ∧ isOutputWord i = false ∧ exec i s = .next u
        ∧ t = u.bindNames into n)
    ∨ (∃ o, x.isContract = true ∧ execOp o s = .next t)
    ∨ (∃ w, x.isContract = false ∧ t = s.transmit w) := by
  cases x with
  | request o a b into =>
    simp only [runStmt] at h
    obtain ⟨_, h⟩ := fetchArg_next h
    obtain ⟨_, h⟩ := fetchArg_next h
    obtain ⟨i, hi, h⟩ := withDecoded_next h
    cases he : exec i s with
    | next u =>
      rw [he] at h; injection h with h
      exact .inl ⟨i, u, into, _, rfl, decodeRequest_isRequest hi, he, h.symm⟩
    | fault r => rw [he] at h; cases h
    | refused r => rw [he] at h; cases h
  | op k a b =>
    simp only [runStmt] at h
    obtain ⟨_, h⟩ := fetchArg_next h
    obtain ⟨_, h⟩ := fetchArg_next h
    obtain ⟨o, _, h⟩ := withDecoded_next h
    exact .inr (.inl ⟨o, rfl, h⟩)
  | emit x =>
    simp only [runStmt] at h
    obtain ⟨_, h⟩ := fetchArg_next h
    obtain ⟨w, _, h⟩ := withDecoded_next h
    rw [execWord_eq hf] at h
    injection h with h
    exact .inr (.inr ⟨w, rfl, h.symm⟩)

/-- A step that completed ran from a state without a fault, and either had nothing to run or ran the
first pending statement. -/
theorem step_next {s t : State} (h : step s = .next t) :
    s.fault.code = .none
    ∧ ((s.program = [] ∧ t = s)
      ∨ ∃ x rest, s.program = x :: rest ∧ runStmt x { s with program := rest } = .next t) := by
  rw [step, whenReady_next] at h
  refine ⟨h.1, ?_⟩
  replace h := h.2
  split at h
  · next hp => injection h with h; exact .inl ⟨hp, h.symm⟩
  · next x rest hp => exact .inr ⟨x, rest, hp, h⟩

end Sys2Proof.Machine
end

