-- ==== Sys2Proof/Laws/Sequencer.lean ====
section
/-! SUPPORT. What the Write Sequencer operations leave: the chip after them, and the parts of the state
no instruction and no operation writes. -/

namespace Sys2Proof.Machine

/-- The chip after SetFrequency: the control word, then the two halves. -/
theorem setFrequency_chip (r : Reg) (hz : Rat) (s : State) :
    (setFrequency r hz s).chip
      = ((s.chip.takeControl s.draws s.controlWord true).takeFreq (s.draws + 1) r
          (splitLo (ftw s.ref (fclamp hz)))).takeFreq (s.draws + 2) r (splitUp (ftw s.ref (fclamp hz))) := by
  have e : (s.setFreq r (fclamp hz)).controlWord = s.controlWord := rfl
  simp only [setFrequency, State.transmitAll, List.foldl, State.transmit_chip, State.transmit_draws,
    State.deliverAll_chip, State.deliverAll_draws, State.setFreq_chip, State.setFreq_draws, tagf,
    Chip.take_freqWord, e, State.setFreq_ref]
  rw [State.controlWord, Chip.take_ccw]

/-- The chip after SetPhase: the phase word. -/
theorem setPhaseDeg_chip (r : Reg) (deg : Rat) (s : State) :
    (setPhaseDeg r deg s).chip = s.chip.takePhase s.draws r (phw deg) := by
  simp [setPhaseDeg, tagp, Chip.take_phaseDataWord]

/-- The chip after Reset is in reset. -/
theorem reset_inReset (s : State) : ((s.deliver (.word rstw)).transmit rstw).chip.inReset = true := by
  simp only [State.transmit_chip, rstw, Chip.take_resetOnlyWord, Chip.inReset, Chip.takeControl_control]
  decide

/-- After the live composition the chip's reset bit is `not ds.outEn`. -/
theorem emitControl_inReset (s : State) : s.emitControl.chip.inReset = !s.ds.outEn := by
  rw [State.emitControl_chip_taken, Chip.inReset, Chip.takeControl_control]
  exact (ccw_modeBits _ _).1

/-- After the live composition the chip sleeps exactly if `ds.sleep`. -/
theorem emitControl_sleeping (s : State) : s.emitControl.chip.sleeping = s.ds.sleep := by
  rw [State.emitControl_chip_taken, Chip.takeControl_sleeping, State.controlWord, sleepWord,
    (ccw_modeBits _ _).2.2.2, (ccw_modeBits _ _).2.1]
  cases s.ds.sleep <;> simp

theorem Reg.toSlot_injective {r r' : Reg} (h : r.toSlot = r'.toSlot) : r = r' := by
  cases r <;> cases r' <;> first | rfl | cases h

/-- A stored clamped frequency keeps the ranges. -/
theorem inRange_setFreq {ds : DeviceState} (h : inRange ds) (r : Reg) (f : Rat) :
    inRange { ds with freq := ds.freq.set r (fclamp f) } := by
  intro r'
  by_cases e : r' = r
  · subst e; simpa using ⟨(fclamp_bounds f).1, (fclamp_bounds f).2, (h r').2.2⟩
  · simpa [Pair.get_set_ne _ _ e] using h r'

/-- A stored normalised phase keeps the ranges. -/
theorem inRange_setPhase {ds : DeviceState} (h : inRange ds) (r : Reg) (p : Rat) :
    inRange { ds with phase := ds.phase.set r (pnorm p) } := by
  intro r'
  by_cases e : r' = r
  · subst e; simpa using ⟨(h r').1, (h r').2.1, pnorm_bounds p⟩
  · simpa [Pair.get_set_ne _ _ e] using h r'

/-- What no instruction writes. -/
theorem exec_frame {i : Instr} {s t : State} (h : exec i s = .next t) :
    t.program = s.program ∧ t.names = s.names ∧ t.ref = s.ref ∧ t.squareD3Swap = s.squareD3Swap
    ∧ t.chipSelect = s.chipSelect ∧ t.ds = s.ds ∧ s.emitted <+: t.emitted ∧ s.results <+: t.results := by
  obtain ⟨_, ⟨_, v, rfl⟩ | ⟨_, w, rfl⟩ | ⟨_, c, info, _, rfl⟩⟩ := exec_next_cases h <;> simp

/-- What no Write Sequencer operation writes. -/
theorem execOp_frame {o : HostOp} {s t : State} (h : execOp o s = .next t) :
    t.program = s.program ∧ t.names = s.names ∧ t.ref = s.ref ∧ t.squareD3Swap = s.squareD3Swap
    ∧ t.chipSelect = s.chipSelect ∧ s.emitted <+: t.emitted ∧ s.results <+: t.results := by
  obtain ⟨_, ⟨c, info, _, rfl⟩ | ⟨r, q, rfl⟩ | ⟨r, q, rfl⟩ | ⟨r, wf, _, rfl⟩ | ⟨r, wf, _, rfl⟩ | ⟨b, rfl⟩
    | rfl | ⟨b, rfl⟩ | ⟨r, q, rfl⟩⟩ := execOp_next_cases h <;> simp [setFrequency, setPhaseDeg]

end Sys2Proof.Machine
end

