-- ==== Sys2Proof/Machine/Asm.lean ====
section
/-! DEFINITION. The assembly text of R69 and R70: one statement a line,
`MNEMONIC [operand [, operand]] [-> name [, name]]`, with `; text` a comment. Reading a text gives the
program the machine runs; a line that is no statement gives none. -/

namespace Sys2Proof.Machine.Asm

/-- The tokens of a line. -/
inductive Token where
  | word (cs : List Char)
  | comma
  | arrow
  | equals
  | openBrace
  | closeBrace
  deriving DecidableEq, Repr

/-- The pending word, if there is one, before the tokens that follow it. -/
def flush (acc : List Char) (ts : List Token) : List Token :=
  if acc.isEmpty then ts else .word acc.reverse :: ts

/-- Tokens of a line up to its comment; `acc` is the word being read, last character first. A minus sign
belongs to an arrow only when a greater-than sign follows it. -/
def tokens (acc : List Char) : List Char → List Token
  | [] => flush acc []
  | c :: cs =>
    if c = ';' then flush acc []
    else if c = ' ' || c = '\t' || c = '\r' then flush acc (tokens [] cs)
    else if c = ',' then flush acc (.comma :: tokens [] cs)
    else if c = '=' then flush acc (.equals :: tokens [] cs)
    else if c = Char.ofNat 123 then flush acc (.openBrace :: tokens [] cs)
    else if c = Char.ofNat 125 then flush acc (.closeBrace :: tokens [] cs)
    else if c = '>' && acc.head? = some '-' then flush acc.tail (.arrow :: tokens [] cs)
    else tokens (c :: acc) cs

/-! ## Literals -/

/-- The value of a digit, hexadecimal ones included. -/
def digit (c : Char) : Option Nat :=
  if '0' ≤ c ∧ c ≤ '9' then some (c.toNat - 48)
  else if 'A' ≤ c ∧ c ≤ 'F' then some (c.toNat - 55)
  else if 'a' ≤ c ∧ c ≤ 'f' then some (c.toNat - 87)
  else none

/-- An unsigned integer in a base, most significant digit first. -/
def readNat (base acc : Nat) : List Char → Option Nat
  | [] => some acc
  | c :: cs =>
    match digit c with
    | some d => if d < base then readNat base (base * acc + d) cs else none
    | none => none

/-- A non-empty unsigned integer. -/
def readNat1 (base : Nat) (cs : List Char) : Option Nat :=
  if cs.isEmpty then none else readNat base 0 cs

/-- An unsigned literal: `0x` hexadecimal, decimal, decimal with a point, or a fraction `a/b`. -/
def readUnsigned (cs : List Char) : Option Rat :=
  let whole := cs.takeWhile fun c => c ≠ '.' && c ≠ '/'
  match cs, cs.drop whole.length with
  | '0' :: 'x' :: hex, _ => (readNat1 16 hex).map fun n => (n : Rat)
  | _, [] => (readNat1 10 cs).map fun n => (n : Rat)
  | _, '.' :: frac => do
    let n ← readNat1 10 whole
    let m ← readNat1 10 frac
    pure ((n : Rat) + (m : Rat) / (10 ^ frac.length : Nat))
  | _, '/' :: den => do
    let n ← readNat1 10 whole
    let d ← readNat1 10 den
    if d = 0 then none else pure ((n : Rat) / (d : Rat))
  | _, _ => none

/-- A signed literal (R69). -/
def readNumber : List Char → Option Rat
  | '-' :: cs => (readUnsigned cs).map fun q => -q
  | '+' :: cs => readUnsigned cs
  | cs => readUnsigned cs

/-- Slot and waveform names (R69), as their codes (R58, R59). R69 lists the names untyped, and the model
takes any of them as its bare code wherever an operand may stand (the model's choice, log entry 34). -/
def keyword (cs : List Char) : Option Nat :=
  if cs = "REG0".toList then some 0
  else if cs = "REG1".toList then some 1
  else if cs = "SAME".toList then some 2
  else if cs = "SINE".toList then some 0
  else if cs = "TRIANGLE".toList then some 1
  else if cs = "SQUARE".toList then some 2
  else if cs = "HALFSQUARE".toList then some 3
  else none

/-- A name begins with a letter or an underscore. -/
def isName : List Char → Bool
  | [] => false
  | c :: _ => c.isAlpha || c = '_'

/-- An operand of one word: a slot or waveform name, a literal, or a bound name. Which of them an operand
is spelt with is not held against its type: a waveform name or a number may spell a slot, and a slot name a
number (the model's choice, log entry 34). A keyword's spelling is the keyword, also where a name of that
spelling was bound (the model's choice, log entry 35). -/
def readWordArg (cs : List Char) : Option Arg :=
  match keyword cs, readNumber cs with
  | some k, _ => some (.lit (.rat (k : Rat)))
  | none, some q => some (.lit (.rat q))
  | none, none => if isName cs then some (.name cs) else none

/-! ## Composer vectors -/

/-- A field's value: a slot or waveform name, or a decimal. As for operands, any name is its bare code, so
that `wave0=SAME` is Square (the model's choice, log entry 34). -/
def fieldValue (v : List Char) : Option Nat := (keyword v).or (readNat1 10 v)

/-- One field `name=value` of a composer vector, its value below `bound`. -/
def readField (name : List Char) (bound : Nat) : List Token → Option (Nat × List Token)
  | .word f :: .equals :: .word v :: rest =>
    if f = name then
      (fieldValue v).bind fun k => if k < bound then some (k, rest) else none
    else none
  | _ => none

/-- The comma between two fields. -/
def skipComma : List Token → Option (List Token)
  | .comma :: rest => some rest
  | _ => none

/-- A composer vector after its opening brace: the six fields of R69, packed as R60 packs them. -/
def readVector (ts : List Token) : Option (Arg × List Token) := do
  let (fsel, ts) ← readField "fsel".toList 2 ts
  let (psel, ts) ← readField "psel".toList 2 (← skipComma ts)
  let (wave0, ts) ← readField "wave0".toList 4 (← skipComma ts)
  let (wave1, ts) ← readField "wave1".toList 4 (← skipComma ts)
  let (outEn, ts) ← readField "outEn".toList 2 (← skipComma ts)
  let (sleep, ts) ← readField "sleep".toList 2 (← skipComma ts)
  match ts with
  | .closeBrace :: rest =>
    let civ := fsel + 2 * psel + 4 * wave0 + 16 * wave1 + 64 * outEn + 128 * sleep
    pure (.lit (.rat (civ : Rat)), rest)
  | _ => none

/-! ## Statements -/

/-- One operand. A composer vector is the u8 it packs to, wherever it stands (log entry 34). -/
def readArg : List Token → Option (Arg × List Token)
  | .word w :: rest => (readWordArg w).map fun a => (a, rest)
  | .openBrace :: rest => readVector rest
  | _ => none

/-- The operands of a line: none, one, or two with a comma between. -/
def readArgs (ts : List Token) : Option (List Arg × List Token) :=
  match ts with
  | [] => some ([], [])
  | .arrow :: rest => some ([], .arrow :: rest)
  | _ =>
    match readArg ts with
    | none => none
    | some (a, .comma :: rest) => (readArg rest).map fun (b, rest) => ([a, b], rest)
    | some (a, rest) => some ([a], rest)

/-- The names after an arrow: one, or two with a comma between. R69 reserves no name, and the model takes
one spelt like a slot or waveform name as well (`RES -> SINE`): it is bound, and no operand of a text can
read it, since `readWordArg` takes that spelling as the keyword's code (the model's choice, log entry
35). -/
def readInto : List Token → Option (List Name)
  | [] => some []
  | [.arrow, .word x] => if isName x then some [x] else none
  | [.arrow, .word x, .comma, .word y] => if isName x && isName y then some [x, y] else none
  | _ => none

/-- The selectors' mnemonics (R54). -/
def opselOf (m : List Char) : Option (BitVec 4) :=
  if m = "FCLAMP".toList then some 0x1
  else if m = "FTW".toList then some 0x2
  else if m = "W2F".toList then some 0x3
  else if m = "SPLIT".toList then some 0x4
  else if m = "RES".toList then some 0x5
  else if m = "PNORM".toList then some 0x6
  else if m = "PHW".toList then some 0x7
  else if m = "TAGF".toList then some 0x8
  else if m = "TAGP".toList then some 0x9
  else if m = "CCW".toList then some 0xA
  else if m = "RESOLVE".toList then some 0xB
  else if m = "RSTW".toList then some 0xC
  else none

/-- The pseudo-instructions' mnemonics (R70). -/
def opKindOf (m : List Char) : Option OpKind :=
  if m = "SETFREQ".toList then some .setFreq
  else if m = "INCFREQ".toList then some .incFreq
  else if m = "SETPHASE".toList then some .setPhase
  else if m = "INCPHASE".toList then some .incPhase
  else if m = "SETWAVE".toList then some .setWave
  else if m = "ENABLE".toList then some .enable
  else if m = "RESET".toList then some .reset
  else if m = "SLEEP".toList then some .sleep
  else if m = "SETSRC".toList then some .setSrc
  else none

/-- Operand `n` of a line; a missing one is 0. -/
def argAt (as : List Arg) (n : Nat) : Arg := as.getD n (.lit (.rat 0))

/-- The statement of a mnemonic with its operands and names, which must be as many operands as it uses. -/
def buildStmt (m : List Char) (as : List Arg) (into : List Name) : Option Stmt :=
  match opselOf m, opKindOf m with
  | some o, _ =>
    if as.length = opselArity o then some (.request o (argAt as 0) (argAt as 1) into) else none
  | none, some k =>
    if as.length = k.arity && into.isEmpty then some (.op k (argAt as 0) (argAt as 1)) else none
  | none, none =>
    if m = "EMIT".toList && as.length = 1 && into.isEmpty then some (.emit (argAt as 0)) else none

/-- The statement of a line's tokens. -/
def readLine : List Token → Option Stmt
  | .word m :: rest =>
    match readArgs rest with
    | none => none
    | some (as, rest) => (readInto rest).bind fun into => buildStmt m as into
  | _ => none

/-- A text's lines, split at line feeds; `acc` is the line being read, last character first. -/
def splitLines (acc : List Char) : List Char → List (List Char)
  | [] => [acc.reverse]
  | c :: cs => if c = '\n' then acc.reverse :: splitLines [] cs else splitLines (c :: acc) cs

/-- The program a text spells: blank and comment lines are skipped. -/
def assemble (text : List Char) : Option (List Stmt) :=
  (((splitLines [] text).map (tokens [])).filter fun ts => !ts.isEmpty).mapM readLine

end Sys2Proof.Machine.Asm
end

