-- ==== Sys2Proof/Tests/Slice0.lean ====
section
/-! SUPPORT. Tests of single steps against the vectors of spec/95_test_vectors.md (named F, T, K, E, P there)
and the encoding tables, and the witnesses: states and operands that meet the statements' hypotheses. -/

-- Elaborate one theorem after another: many small kernel evaluations, few threads.
set_option Elab.async false

namespace Sys2Proof.Tests

open Sys2Proof Sys2Proof.Machine

/-! ## Helpers -/

/-- What a test looks at: the results delivered, the words emitted, and FAULT. -/
structure Seen where
  results : List Result
  words : List Word
  fault : FaultReg
  deriving DecidableEq, Repr

/-- The observation of an outcome, if it is a next state. -/
def seen : Out → Option Seen
  | .next s => some ⟨s.results, s.emitted, s.fault⟩
  | .fault _ => none
  | .refused _ => none

/-- The Device State of an outcome, if it is a next state. -/
def device : Out → Option DeviceState
  | .next s => some s.ds
  | .fault _ => none
  | .refused _ => none

/-- One result and nothing else. -/
def gives (v : Result) : Option Seen := some ⟨[v], [], ⟨.none, .none⟩⟩

/-- One word and nothing else. -/
def hands (w : Word) : Option Seen := some ⟨[], [w], ⟨.none, .none⟩⟩

/-- A fault and nothing else. -/
def raises (c : FaultCode) (i : FaultInfo) : Option Seen := some ⟨[], [], ⟨c, i⟩⟩

/-- An instruction run in the reset state. -/
def run (i : Instr) : Option Seen := seen (exec i State.reset)

/-- The same with REF = 1,000,000. -/
def runSlow (i : Instr) : Option Seen := seen (exec i { State.reset with ref := 1000000 })

/-- The words of an outcome. -/
def words (o : Out) : Option (List Word) := (seen o).map Seen.words

/-- The reset state with its output enabled. -/
def enabled : State := State.reset.setOutEn true

/-- The reset state with one pending statement. -/
def pending (x : Stmt) : State := { State.reset with program := [x] }

/-- The reset state with a chip that is awake, its registers 0. -/
def awake : State := { State.reset with chip := ⟨⟨0, 0⟩, ⟨0, 0⟩, 0x2000, false, .idle, .control⟩ }

/-- The same with the chip asleep. -/
def asleepNow : State := { State.reset with chip := ⟨⟨0, 0⟩, ⟨0, 0⟩, 0x20C0, true, .idle, .control⟩ }

/-- A faulted state (after T7). -/
def faulted : State := { State.reset with fault := ⟨.illegalSlot, .slot .a .same⟩ }

/-! ## WellFormed: one ill-formed term for each check (R55, R58, R63, R92) -/

theorem test_wf_nonfinite :
    (Instr.fclamp .nan).wellFormed = false ∧ (Instr.ftw (.inf true)).wellFormed = false
    ∧ (Instr.pnorm (.inf false)).wellFormed = false ∧ (Instr.phw .nan).wellFormed = false
    ∧ (Instr.fclamp (.rat (-5))).wellFormed = true := by decide

theorem test_wf_slots :
    (Instr.tagf .same 5).wellFormed = false ∧ (Instr.tagf .illegal 5).wellFormed = false
    ∧ (Instr.tagp .same 0).wellFormed = false ∧ (Instr.tagp .illegal 0).wellFormed = false
    ∧ (Instr.resolve .same .reg0).wellFormed = false ∧ (Instr.resolve .illegal .reg0).wellFormed = false
    ∧ (Instr.resolve .reg0 .illegal).wellFormed = false
    ∧ (Instr.resolve .reg1 .same).wellFormed = true := by decide

theorem test_wf_selectors :
    Instr.illegal0.wellFormed = false ∧ Instr.illegalD.wellFormed = false
    ∧ Instr.illegalE.wellFormed = false ∧ Instr.illegalF.wellFormed = false := by decide

/-- D7 without D6; D5 with D1; D3 without D5; and the legal word 0x2CE8. -/
theorem test_wf_control :
    (Instr.ctrl ⟨false, false, false, true, false, false, false, false⟩).wellFormed = false
    ∧ (Instr.ctrl ⟨false, false, false, false, false, true, false, true⟩).wellFormed = false
    ∧ (Instr.ctrl ⟨false, false, false, false, false, false, true, false⟩).wellFormed = false
    ∧ (Instr.ctrl ⟨true, true, false, true, true, true, true, false⟩).wellFormed = true := by decide

/-! ## Decoding: a spelling written out from the tables for every row (R54, R58, R60, R62 to R66) -/

theorem test_decode_fclamp : decodeRequest ⟨0b0001, .rat 1000, .rat 7⟩ = .ok (.fclamp (.rat 1000)) := by
  decide +kernel

theorem test_decode_ftw : decodeRequest ⟨0b0010, .nan, .rat 0⟩ = .ok (.ftw .nan) := by decide +kernel

/-- The largest u28, and the first value that cannot be presented. -/
theorem test_decode_w2f :
    decodeRequest ⟨0b0011, .rat 268435455, .rat 0⟩ = .ok (.w2f 0xFFFFFFF)
    ∧ decodeRequest ⟨0b0011, .rat 268435456, .rat 0⟩ = .error (.unpresentable .a) := by decide +kernel

theorem test_decode_split :
    decodeRequest ⟨0b0100, .rat 10737, .rat 0⟩ = .ok (.split 0x29F1)
    ∧ decodeRequest ⟨0b0100, .rat (1 / 2), .rat 0⟩ = .error (.unpresentable .a) := by decide +kernel

theorem test_decode_res : decodeRequest ⟨0b0101, .nan, .inf true⟩ = .ok .res := by decide +kernel

theorem test_decode_pnorm : decodeRequest ⟨0b0110, .rat (-90), .rat 0⟩ = .ok (.pnorm (.rat (-90))) := by
  decide +kernel

theorem test_decode_phw : decodeRequest ⟨0b0111, .rat 90, .rat 0⟩ = .ok (.phw (.rat 90)) := by
  decide +kernel

theorem test_decode_tagf :
    decodeRequest ⟨0b1000, .rat 1, .rat 16383⟩ = .ok (.tagf .reg1 0x3FFF)
    ∧ decodeRequest ⟨0b1000, .rat 1, .rat 16384⟩ = .error (.unpresentable .b) := by decide +kernel

theorem test_decode_tagp :
    decodeRequest ⟨0b1001, .rat 3, .rat 4095⟩ = .ok (.tagp .illegal 0xFFF)
    ∧ decodeRequest ⟨0b1001, .rat 4, .rat 0⟩ = .error (.unpresentable .a) := by decide +kernel

theorem test_decode_ccw :
    decodeRequest ⟨0b1010, .rat 255, .rat 0⟩ = .ok (.ccw 0xFF)
    ∧ decodeRequest ⟨0b1010, .rat (-1), .rat 0⟩ = .error (.unpresentable .a) := by decide +kernel

theorem test_decode_resolve : decodeRequest ⟨0b1011, .rat 1, .rat 2⟩ = .ok (.resolve .reg1 .same) := by
  decide +kernel

theorem test_decode_rstw : decodeRequest ⟨0b1100, .rat 0, .rat 0⟩ = .ok .rstw := by decide +kernel

theorem test_decode_illegal :
    decodeRequest ⟨0b0000, .rat 1, .rat 1⟩ = .ok .illegal0
    ∧ decodeRequest ⟨0b1101, .rat 1000, .rat 0⟩ = .ok .illegalD
    ∧ decodeRequest ⟨0b1110, .nan, .nan⟩ = .ok .illegalE
    ∧ decodeRequest ⟨0b1111, .rat 0, .rat 0⟩ = .ok .illegalF := by decide +kernel

/-- K16, 0x2928: D11, D8, D5 and D3; and every named bit. -/
theorem test_decode_ctrl :
    decodeBytes [0b00101001, 0b00101000]
      = .ok (.ctrl ⟨true, false, true, false, false, true, true, false⟩)
    ∧ decodeBytes [0b00101101, 0b11101010] = .ok (.ctrl ⟨true, true, true, true, true, true, true, true⟩) := by
  decide

/-- 0x0100; a control word with D13 = 0 and another bit is of no row, nor is one with an unnamed bit. -/
theorem test_decode_rstWord :
    decodeBytes [0b00000001, 0b00000000] = .ok .rstWord
    ∧ decodeBytes [0b00000001, 0b00000010] = .error (.noRow 0x0102)
    ∧ decodeBytes [0b00110000, 0b00000000] = .error (.noRow 0x3000) := by decide

theorem test_decode_freq0 : decodeBytes [0b01101001, 0b11110001] = .ok (.freq0 0x29F1) := by decide

theorem test_decode_freq1 : decodeBytes [0b10100000, 0b00000000] = .ok (.freq1 0x2000) := by decide

theorem test_decode_phase0 :
    decodeBytes [0b11000100, 0b00000000] = .ok (.phase0 0x400)
    ∧ decodeBytes [0b11010000, 0b00000000] = .error (.noRow 0xD000) := by decide

theorem test_decode_phase1 : decodeBytes [0b11101100, 0b00000000] = .ok (.phase1 0xC00) := by decide

/-- R70: pseudo-instructions decode by kind; a slot code 4, a waveform code 4 and a switch 2 do not. -/
theorem test_decode_operations :
    decodeOp .setFreq (.rat 1) (.rat 1000) = .ok (.setFreq .reg1 (.rat 1000))
    ∧ decodeOp .setWave (.rat 0) (.rat 3) = .ok (.setWave .reg0 .halfSquare)
    ∧ decodeOp .enable (.rat 1) (.rat 0) = .ok (.enable true)
    ∧ decodeOp .incPhase (.rat 4) (.rat 0) = .error (.unpresentable .a)
    ∧ decodeOp .setWave (.rat 0) (.rat 4) = .error (.unpresentable .b)
    ∧ decodeOp .sleep (.rat 2) (.rat 0) = .error (.unpresentable .a) := by decide +kernel

/-- There is no partial-word emission (R44). -/
theorem test_decode_bytes_whole_words :
    decodeBytes [] = .error .notOneWord ∧ decodeBytes [0x21] = .error .notOneWord
    ∧ decodeBytes [0x21, 0x00, 0x69] = .error .notOneWord := by decide

/-- R42, R43: the bytes of 0x69F1 and its bits on the line. -/
theorem test_wire :
    wordBytes 0x69F1 = [0x69, 0xF1]
    ∧ wordSerial .msbFirst 0x69F1 = [false, true, true, false, true, false, false, true,
        true, true, true, true, false, false, false, true] := by decide

/-- R33, R60: the construction default packs to 0x00, and P2's end state to 0xF7. -/
theorem test_pack :
    packCiv deviceDefaults = 0x00
    ∧ packCiv ⟨⟨1000, 1000⟩, ⟨0, 10⟩, ⟨.triangle, .halfSquare⟩, true, true, .reg1, .reg1⟩ = 0xF7 := by decide

/-- The table's numbering: FCLAMP of zeros, CTRL 0x2100, and the first step after reset runs them. -/
theorem test_table_words :
    decodeTableWord 4 0x1 = some (.fclamp (.rat 0))
    ∧ decodeTableWord 16 0x2100 = some (.ctrl ⟨false, false, true, false, false, false, false, false⟩)
    ∧ seen (step (State.reset.withFetchWord 4 0x1)) = gives (.hz (1 / 10))
    ∧ seen (step (State.reset.withFetchWord 16 0x2100)) = hands 0x2100 := by decide +kernel

/-! ## Codec requests -/

/-- F1, F6. -/
theorem test_fclamp : run (.fclamp (.rat 1000)) = gives (.hz 1000)
    ∧ run (.fclamp (.rat (-5))) = gives (.hz (1 / 10)) := by decide +kernel

/-- F7, F3. -/
theorem test_fclamp_top : run (.fclamp (.rat 20000000)) = gives (.hz 12500000)
    ∧ run (.fclamp (.rat 12500000)) = gives (.hz 12500000) := by decide +kernel

/-- F8, F14, F16. -/
theorem test_ftw : run (.ftw (.rat 1000)) = gives (.tuning 0x29F1)
    ∧ run (.ftw (.rat 1000000)) = gives (.tuning 0xA3D70A)
    ∧ run (.ftw (.rat 1)) = gives (.tuning 11) := by decide +kernel

/-- F17 (tie), F19 (negative), F20 and F21 (wrap), F13 (small reference), F22 (largest). -/
theorem test_ftw_corners : run (.ftw (.rat (390625 / 8388608))) = gives (.tuning 1)
    ∧ run (.ftw (.rat (-1000))) = gives (.tuning 0xFFFD60F)
    ∧ run (.ftw (.rat 25000000)) = gives (.tuning 0)
    ∧ run (.ftw (.rat (25000000 - 25000000 / 1073741824))) = gives (.tuning 0)
    ∧ runSlow (.ftw (.rat 12500000)) = gives (.tuning 0x8000000)
    ∧ run (.ftw (.rat (104857599609375 / 4194304))) = gives (.tuning 0xFFFFFFF) := by decide +kernel

/-- F25, F30. -/
theorem test_w2f : run (.w2f 10737) = gives (.hz (4194140625 / 4194304))
    ∧ runSlow (.w2f 0x8000000) = gives (.hz 500000) := by decide +kernel

/-- F14, and the extra SPLIT vectors. -/
theorem test_split : run (.split 0xA3D70A) = gives (.halves 0x170A 0x028F)
    ∧ run (.split 0x3FFF) = gives (.halves 0x3FFF 0) ∧ run (.split 0x4000) = gives (.halves 0 1)
    ∧ run (.split 0xABCDEF) = gives (.halves 0xDEF 0x2AF) := by decide +kernel

/-- F29. -/
theorem test_res : run .res = gives (.hz (390625 / 4194304)) := by decide +kernel

/-- F35, F37, F45, F46. -/
theorem test_pnorm : run (.pnorm (.rat (-90))) = gives (.degrees 270)
    ∧ run (.pnorm (.rat 360)) = gives (.degrees 0)
    ∧ run (.pnorm (.rat (1441 / 2))) = gives (.degrees (1 / 2))
    ∧ run (.pnorm (.rat (-1 / 4))) = gives (.degrees (1439 / 4)) := by decide +kernel

/-- F31, F39, F40, F44. -/
theorem test_phw : run (.phw (.rat 90)) = gives (.phase 0x400)
    ∧ run (.phw (.rat 359)) = gives (.phase 0xFF5)
    ∧ run (.phw (.rat (3599 / 10))) = gives (.phase 0xFFF)
    ∧ run (.phw (.rat 1)) = gives (.phase 11) := by decide +kernel

/-- F41 (wraps), F43 (tie), F48 (negative epsilon), F36. -/
theorem test_phw_corners : run (.phw (.rat (35999 / 100))) = gives (.phase 0)
    ∧ run (.phw (.rat (135 / 1024))) = gives (.phase 2)
    ∧ run (.phw (.rat (-1 / 1000000))) = gives (.phase 0)
    ∧ run (.phw (.rat 450)) = gives (.phase 0x400) := by decide +kernel

/-- E7. -/
theorem test_nonfinite : run (.ftw .nan) = raises .nonfiniteInput (.operand .a)
    ∧ run (.pnorm (.inf true)) = raises .nonfiniteInput (.operand .a) := by decide +kernel

/-! ## Tagging and composer requests -/

/-- T1, T6, T4. -/
theorem test_tagf : run (.tagf .reg0 0x29F1) = gives (.word 0x69F1)
    ∧ run (.tagf .reg1 0x2000) = gives (.word 0xA000)
    ∧ run (.tagf .reg1 0x3FFF) = gives (.word 0xBFFF) := by decide +kernel

/-- T7, T8. -/
theorem test_tagf_slots : run (.tagf .same 5) = raises .illegalSlot (.slot .a .same)
    ∧ run (.tagf .illegal 5) = raises .illegalSlot (.slot .a .illegal) := by decide +kernel

/-- T9, T10, T13, T14. -/
theorem test_tagp : run (.tagp .reg0 1024) = gives (.word 0xC400)
    ∧ run (.tagp .reg1 0xC00) = gives (.word 0xEC00) ∧ run (.tagp .reg0 0xFFF) = gives (.word 0xCFFF)
    ∧ run (.tagp .reg1 0xFFF) = gives (.word 0xEFFF) := by decide +kernel

/-- T15. -/
theorem test_tagp_slots : run (.tagp .same 0) = raises .illegalSlot (.slot .a .same) := by decide +kernel

/-- K1 to K18. -/
theorem test_ccw :
    [0x00, 0x40, 0x41, 0x43, 0x53, 0x73, 0xF3, 0x08, 0x48, 0x4C, 0x0C, 0x84, 0xC4, 0x80, 0x30, 0x31, 0x7F,
      0xFF].map (fun c : Civ => run (.ccw c))
    = [0x2100, 0x2000, 0x2800, 0x2C00, 0x2C02, 0x2C28, 0x2CE8, 0x2120, 0x2020, 0x2028, 0x2128, 0x21C2,
      0x20C2, 0x21C0, 0x2100, 0x2928, 0x2C28, 0x2CE8].map (fun w : Word => gives (.word w)) := by
  decide +kernel

/-- K19, K20. -/
theorem test_ccw_swapped :
    seen (exec (.ccw 0x48) { State.reset with squareD3Swap := true }) = gives (.word 0x2028)
    ∧ seen (exec (.ccw 0x4C) { State.reset with squareD3Swap := true }) = gives (.word 0x2020) := by
  decide +kernel

/-- K21 to K24. -/
theorem test_resolve : run (.resolve .reg1 .same) = gives (.slot .reg1)
    ∧ run (.resolve .reg0 .same) = gives (.slot .reg0) ∧ run (.resolve .reg0 .reg1) = gives (.slot .reg1)
    ∧ run (.resolve .reg1 .reg0) = gives (.slot .reg0) := by decide +kernel

/-- K25 to K27. -/
theorem test_resolve_slots : run (.resolve .same .reg0) = raises .illegalSlot (.slot .a .same)
    ∧ run (.resolve .reg0 .illegal) = raises .illegalSlot (.slot .b .illegal)
    ∧ run (.resolve .illegal .illegal) = raises .illegalSlot (.slot .a .illegal) := by decide +kernel

/-- K28. -/
theorem test_rstw : run .rstw = gives (.word 0x0100) := by decide +kernel

/-- E1 to E3. -/
theorem test_illegal : run .illegal0 = raises .illegalOpsel (.opsel 0x0)
    ∧ run .illegalD = raises .illegalOpsel (.opsel 0xD) ∧ run .illegalE = raises .illegalOpsel (.opsel 0xE)
    ∧ run .illegalF = raises .illegalOpsel (.opsel 0xF) := by decide +kernel

/-- E4: no step. -/
theorem test_faulted : exec (.ftw (.rat 1000)) faulted = .fault .faulted
    ∧ step { faulted with program := [.op .enable (.lit (.rat 1)) (.lit (.rat 0))] } = .fault .faulted :=
  ⟨rfl, rfl⟩

/-- E5, E6. -/
theorem test_construct : (construct 0 0 false).fault = ⟨.badReference, .reference 0⟩
    ∧ (construct 0 (-25000000) false).fault = ⟨.badReference, .reference (-25000000)⟩ := by decide +kernel

/-! ## Output words and the chip -/

/-- The words of P2 step 6, 0x0100, and P1 and P2's data words. -/
theorem test_output_words :
    run (.ctrl ⟨true, true, false, true, true, true, true, false⟩) = hands 0x2CE8
    ∧ run .rstWord = hands 0x0100 ∧ run (.freq0 0x29F1) = hands 0x69F1 ∧ run (.freq1 0x2000) = hands 0xA000
    ∧ run (.phase0 0x400) = hands 0xC400 ∧ run (.phase1 0xC00) = hands 0xEC00 := by decide +kernel

/-- P1: the words 0x2100, 0x69F1, 0x4000 make the chip's REG0 hold 0x29F1 and leave REG1. -/
theorem test_chip_frequency :
    (((awake.chip.take 0 0x2100).take 1 0x69F1).take 2 0x4000).freq = ⟨0x29F1, 0⟩
    ∧ (((awake.chip.take 0 0x2100).take 1 0x69F1).take 2 0x4000).inReset = true := ⟨rfl, rfl⟩

/-- P2: 0xEC00 makes the chip's phase register REG1 hold 0xC00. -/
theorem test_chip_phase : (awake.chip.take 0 0xEC00).phase = ⟨0, 0xC00⟩ := rfl

/-- R63, R128, R155: D6 alone is no sleep and the registers stay when it is cleared; D7 and D6 are a sleep,
which a word with D6 alone does not end and one with neither does. -/
theorem test_chip_sleep :
    (awake.chip.take 0 0x2040).sleeping = false
    ∧ (((awake.chip.take 0 0xCFFF).take 1 0x2040).take 2 0x2000).phase = ⟨0xFFF, 0⟩
    ∧ ((awake.chip.take 0 0x20C0).take 1 0x2040).sleeping = true
    ∧ ((awake.chip.take 0 0x20C0).take 1 0x2000).sleeping = false := by decide

/-! ## Write Sequencer -/

/-- P1 step 1: words and results. -/
theorem test_setFreq : seen (execOp (.setFreq .reg0 (.rat 1000)) State.reset)
    = some ⟨[.hz 1000, .tuning 0x29F1, .halves 0x29F1 0, .word 0x2100, .word 0x69F1, .word 0x4000],
        [0x2100, 0x69F1, 0x4000], ⟨.none, .none⟩⟩ := by decide +kernel

/-- P3: SETFREQ REG1, 20000000 stores 12500000; INCFREQ REG1, -12500000 then stores 1/10. -/
theorem test_incFreq :
    (device (execOp (.setFreq .reg1 (.rat 20000000)) State.reset)).map (·.freq) = some ⟨1000, 12500000⟩
    ∧ words (execOp (.incFreq .reg1 (.rat (-12500000))) (State.reset.setFreq .reg1 12500000))
      = some [0x2100, 0x8001, 0x8000]
    ∧ (device (execOp (.incFreq .reg1 (.rat (-12500000))) (State.reset.setFreq .reg1 12500000))).map
        (·.freq) = some ⟨1000, 1 / 10⟩ := by decide +kernel

/-- P2: SETPHASE REG1, -90. -/
theorem test_setPhase : words (execOp (.setPhase .reg1 (.rat (-90))) State.reset) = some [0xEC00]
    ∧ (device (execOp (.setPhase .reg1 (.rat (-90))) State.reset)).map (·.phase) = some ⟨0, 270⟩ := by
  decide +kernel

/-- P2: INCPHASE REG1, 100 from 270. -/
theorem test_incPhase :
    words (execOp (.incPhase .reg1 (.rat 100)) (State.reset.setPhase .reg1 270)) = some [0xE072]
    ∧ (device (execOp (.incPhase .reg1 (.rat 100)) (State.reset.setPhase .reg1 270))).map (·.phase)
      = some ⟨0, 10⟩ := by decide +kernel

/-- S5: on the active slot, and on the other. -/
theorem test_setWave : words (execOp (.setWave .reg0 .sine) State.reset) = some [0x2100]
    ∧ words (execOp (.setWave .reg1 .sine) State.reset) = some [] := by decide +kernel

/-- S4: ENABLE 1, then SETSRC REG1, SAME. -/
theorem test_enable_setSrc : words (execOp (.enable true) State.reset) = some [0x2000]
    ∧ words (execOp (.setSrc .reg1 .same) enabled) = some [0x2C00]
    ∧ (device (execOp (.setSrc .reg1 .same) enabled)).map (fun d => (d.fsel, d.psel))
      = some (.reg1, .reg1) := by decide +kernel

/-- P3: RESET, and K14: SLEEP 1 from the default. -/
theorem test_reset_sleep : words (execOp .reset State.reset) = some [0x0100]
    ∧ words (execOp (.sleep true) State.reset) = some [0x21C0] := by decide +kernel

/-! ## The assembly text (R69, R70) -/

theorem test_asm_request : Asm.assemble "TAGF SAME, 5   ; a raw block request".toList
    = some [.request 0x8 (.lit (.rat 2)) (.lit (.rat 5)) []] := by decide +kernel

theorem test_asm_names : Asm.assemble "SPLIT 0x29F1 -> lo, up\nTAGF REG0, lo -> a\nEMIT a".toList
    = some [.request 0x4 (.lit (.rat 0x29F1)) (.lit (.rat 0)) ["lo".toList, "up".toList],
        .request 0x8 (.lit (.rat 0)) (.name "lo".toList) ["a".toList], .emit (.name "a".toList)] := by
  decide +kernel

theorem test_asm_literals :
    Asm.readNumber "-359.99".toList = some (-35999 / 100) ∧ Asm.readNumber "45/1024".toList = some (45 / 1024)
    ∧ Asm.readNumber "0x3FFF".toList = some 16383 ∧ Asm.readNumber "1x".toList = none := by decide +kernel

theorem test_asm_ops : Asm.assemble "SETSRC REG1, SAME\nSETWAVE REG1, HALFSQUARE\n\nRESET".toList
    = some [.op .setSrc (.lit (.rat 1)) (.lit (.rat 2)), .op .setWave (.lit (.rat 1)) (.lit (.rat 3)),
        .op .reset (.lit (.rat 0)) (.lit (.rat 0))] := by decide +kernel

theorem test_asm_rejects : Asm.assemble "FCLAMP".toList = none ∧ Asm.assemble "NOP".toList = none
    ∧ Asm.assemble "TAGF REG0 5".toList = none := by decide +kernel

/-! ## Witnesses: the hypotheses of each statement can be met together -/

theorem witness_ConstructionLatchesReference : (0 : Rat) < 1 / 1000000 := by norm_num

theorem witness_ConstructionRejectsBadReference : (0 : Rat) ≤ 0 ∧ (-25000000 : Rat) ≤ 0 := by norm_num

theorem witness_WordsDecodeUniquely :
    decodeWord 0x2100 = .ok (.ctrl ⟨false, false, true, false, false, false, false, false⟩)
    ∧ decodeWord 0x0100 = .ok .rstWord ∧ decodeWord 0xEFFF = .ok (.phase1 0xFFF) := by decide

theorem witness_StepRunsTheDecodedInstruction :
    (pending (stmtOf (encode (.ftw (.rat 1000))))).fault.code = .none
    ∧ (pending (stmtOf (encode (.ftw (.rat 1000))))).program = stmtOf (encode (.ftw (.rat 1000))) :: []
    ∧ decode (encode (.ftw (.rat 1000))) = .ok (.ftw (.rat 1000))
    ∧ (pending (stmtOf (.word 0x69F1))).program = stmtOf (.word 0x69F1) :: []
    ∧ decode (.word 0x69F1) = .ok (.freq0 0x29F1) :=
  ⟨rfl, rfl, rfl, rfl, by decide⟩

/-- The reset state with `w` bound to 10737. -/
def named : State := { State.reset with names := [("w".toList, .rat 10737)] }

/-- A request with a bound name beside a literal in the slot it ignores, as in `SPLIT w -> lo, up`. -/
theorem witness_NamesCarryResults :
    ∃ t, named.denotes (.name "w".toList) (.rat 10737) ∧ named.denotes (.lit (.rat 0)) (.rat 0)
      ∧ decodeRequest ⟨0x4, .rat 10737, .rat 0⟩ = .ok (.split 0x29F1)
      ∧ exec (.split 0x29F1) named = .next t ∧ t.results = named.results ++ [.halves 0x29F1 0] :=
  ⟨named.deliver (.halves (splitLo 0x29F1) (splitUp 0x29F1)), .inr ⟨_, rfl, by decide +kernel⟩, .inl rfl,
    by decide +kernel, rfl, by decide⟩

/-- A bound name in slot A and in slot B, each beside a literal. -/
theorem witness_denotes_mixed :
    (named.denotes (.name "w".toList) (.rat 10737) ∧ named.denotes (.lit (.rat 1)) (.rat 1))
    ∧ (named.denotes (.lit (.rat 1)) (.rat 1) ∧ named.denotes (.name "w".toList) (.rat 10737)) :=
  ⟨⟨.inr ⟨_, rfl, by decide +kernel⟩, .inl rfl⟩, ⟨.inl rfl, .inr ⟨_, rfl, by decide +kernel⟩⟩⟩

theorem witness_EmitHandsOverAnyWord :
    (pending (.emit (.lit (.rat (((0xFFFF : Word).toNat : Nat) : Rat))))).fault.code = .none
    ∧ (pending (.emit (.lit (.rat (((0xFFFF : Word).toNat : Nat) : Rat))))).program
      = .emit (.lit (.rat (((0xFFFF : Word).toNat : Nat) : Rat))) :: [] := ⟨rfl, rfl⟩

/-- A step with a statement pending, and one with none. -/
theorem witness_StepsKeepProgramOrder :
    (∃ t, step (pending (.op .reset (.lit (.rat 0)) (.lit (.rat 0)))) = .next t)
    ∧ ∃ t, step State.reset = .next t := ⟨⟨_, rfl⟩, ⟨_, rfl⟩⟩

/-- A pending pseudo-instruction with its operands, and its decoding. -/
theorem witness_StepRunsTheDecodedOperation :
    (pending (.op .setSrc (.lit (.rat 1)) (.lit (.rat 2)))).fault.code = .none
    ∧ (pending (.op .setSrc (.lit (.rat 1)) (.lit (.rat 2)))).program
      = .op .setSrc (.lit (.rat 1)) (.lit (.rat 2)) :: []
    ∧ decodeOp .setSrc (.rat 1) (.rat 2) = .ok (.setSrc .reg1 .same) := ⟨rfl, rfl, by decide +kernel⟩

theorem witness_NoStepWritesTheConfiguration :
    ∃ t, step (pending (.op .enable (.lit (.rat 1)) (.lit (.rat 0)))) = .next t :=
  ⟨_, whenReady_of_ready rfl _⟩

/-- The invariant holds with a statement pending, which runs; and the ranges include their ends. -/
theorem witness_StepKeepsTheInvariant :
    ((pending (.op .reset (.lit (.rat 0)) (.lit (.rat 0)))).Inv
      ∧ ∃ t, step (pending (.op .reset (.lit (.rat 0)) (.lit (.rat 0)))) = .next t)
    ∧ inRange { deviceDefaults with freq := ⟨1 / 10, 12500000⟩, phase := ⟨0, 3599 / 10⟩ } := by
  refine ⟨⟨.inr ⟨?_, fun r => ?_⟩, ⟨_, rfl⟩⟩, fun r => ?_⟩
  · norm_num [pending, State.reset, Config.refDefault]
  · cases r <;> norm_num [pending, State.reset, deviceDefaults, Pair.get, Config.fMin, Config.fMax,
      Config.phaseTurn]
  · cases r <;> norm_num [Pair.get, Config.fMin, Config.fMax, Config.phaseTurn]

theorem witness_StepKeepsTheChipInOrder :
    (pending (.op .reset (.lit (.rat 0)) (.lit (.rat 0)))).contract
    ∧ ∃ t, step (pending (.op .reset (.lit (.rat 0)) (.lit (.rat 0)))) = .next t :=
  ⟨⟨.inl rfl, rfl⟩, ⟨_, rfl⟩⟩

theorem witness_FaultedInstanceHasNoStep : faulted.fault.code ≠ .none := by decide

theorem witness_RaisedFaultChangesOnlyFault :
    ∃ t, t.fault.code ≠ .none ∧ exec .illegalD State.reset = .next t
      ∧ ∃ u, u.fault.code ≠ .none ∧ execOp (.setPhase .same .nan) State.reset = .next u :=
  ⟨{ State.reset with fault := ⟨.illegalOpsel, .opsel 0xD⟩ }, by decide, rfl,
    { State.reset with fault := ⟨.illegalSlot, .slot .a .same⟩ }, by decide, rfl⟩

/-- The hypothesis of every statement over a state without a fault. -/
theorem witness_ready : State.reset.fault.code = .none ∧ awake.fault.code = .none := by decide

/-- Both illegal codes of IllegalSlotsRaise and HostOperationsRaiseAtEntry. -/
theorem witness_illegal_slots :
    (SlotCode.same = .same ∨ SlotCode.same = .illegal) ∧ (SlotCode.illegal = .same ∨ SlotCode.illegal = .illegal) := by
  decide

/-- The three operands of NonfiniteOperandsRaise. -/
theorem witness_nonfinite :
    ∀ x ∈ [Number.nan, .inf true, .inf false], x = .nan ∨ x = .inf true ∨ x = .inf false := by decide

/-- A legal request, an output word that is no composed word, and an illegal request. -/
theorem witness_OnlyIllegalRequestsFault :
    (Instr.fclamp (.rat 0)).wellFormed = true
    ∧ isOutputWord (.ctrl ⟨false, false, false, false, false, false, true, false⟩) = true
    ∧ (Instr.tagf .same 0).wellFormed = false ∧ isOutputWord (.tagf .same 0) = false := by decide

theorem witness_RequestsWriteNoState : isOutputWord .rstw = false ∧ ∃ t, exec .rstw State.reset = .next t :=
  ⟨rfl, ⟨_, rfl⟩⟩

/-- Both ends of the wrap-free interval, f ≤ g, and the clamp range's ends for the default reference. -/
theorem witness_FtwLawsOnTheWrapFreeInterval :
    (0 : Rat) < 25000000 ∧ (-1 / 2 : Rat) < (-1 / 100) * 2 ^ 28 / 25000000
    ∧ (104857599609375 / 4194304 : Rat) * 2 ^ 28 / 25000000 < 2 ^ 28 - 1 / 2
    ∧ (-1 / 100 : Rat) ≤ 104857599609375 / 4194304
    ∧ (12500000 / (1 - 1 / 2 ^ 29) : Rat) < 25000000 ∧ (1 / 10 : Rat) ≤ 1 / 10
    ∧ (12500000 : Rat) ≤ 12500000 := by norm_num

/-- A tie: two grid points are equally near to 390625/8388608 (F17). -/
theorem witness_FrequencyRoundTripIsNearest :
    (0 : Rat) < 25000000 ∧ (-1 / 2 : Rat) < (390625 / 8388608) * 2 ^ 28 / 25000000
    ∧ (390625 / 8388608 : Rat) * 2 ^ 28 / 25000000 < 2 ^ 28 - 1 / 2 ∧ (0 : Rat) ≤ 390625 / 8388608
    ∧ |w2f 25000000 (ftw 25000000 (390625 / 8388608)) - 390625 / 8388608|
      = |w2f 25000000 0 - 390625 / 8388608| := by
  refine ⟨by norm_num, by norm_num, by norm_num, by norm_num, ?_⟩
  have h : ftw 25000000 (390625 / 8388608) = 1 := by decide +kernel
  have h1 : ((1 : Tuning).toNat : Rat) = 1 := by rw [show (1 : Tuning).toNat = 1 from rfl]; norm_num
  have h0 : ((0 : Tuning).toNat : Rat) = 0 := by rw [show (0 : Tuning).toNat = 0 from rfl]; norm_num
  simp only [h, w2f, h1, h0, Config.ftwScale]
  norm_num [abs_of_pos, abs_of_neg]

/-- The ends of the wrap-free interval lie outside it, the upper one at REF = 12.5e6 / (1 - 2^-29) for
f = 12.5e6, which is also the largest reference of the last clause. -/
theorem witness_FrequencyRoundTripOutside :
    (0 : Rat) < 12500000 / (1 - 1 / 2 ^ 29)
    ∧ (12500000 / (1 - 1 / 2 ^ 29) : Rat) ≤ 12500000 / (1 - 1 / 2 ^ 29)
    ∧ (2 ^ 28 - 1 / 2 : Rat) ≤ 12500000 * 2 ^ 28 / (12500000 / (1 - 1 / 2 ^ 29))
    ∧ ((-25000000 / 2 ^ 29 : Rat) * 2 ^ 28 / 25000000 ≤ -1 / 2) := by norm_num

/-- K9 against K15's pattern: two civs that differ in the other slot's waveform only, and two runs. -/
theorem witness_CcwLaws :
    (0x80 : Civ).getLsbD 6 = false ∧ (0x48 : Civ).getLsbD 6 = true ∧ (0x48 : Civ).getLsbD 7 = false
    ∧ (0x00 : Civ) ≠ 0x30 ∧ (0x00 : Civ).getLsbD 0 = (0x30 : Civ).getLsbD 0
    ∧ (0x00 : Civ).getLsbD 1 = (0x30 : Civ).getLsbD 1 ∧ (0x00 : Civ).getLsbD 6 = (0x30 : Civ).getLsbD 6
    ∧ (0x00 : Civ).getLsbD 7 = (0x30 : Civ).getLsbD 7
    ∧ (0x00 : Civ).extractLsb' 2 2 = (0x30 : Civ).extractLsb' 2 2
    ∧ (∃ s', exec (.ccw 0x48) State.reset = .next s') ∧ ∃ t', exec (.ccw 0x48) awake = .next t' :=
  ⟨by decide, by decide, by decide, by decide, by decide, by decide, by decide, by decide, by decide,
    ⟨_, rfl⟩, ⟨_, rfl⟩⟩

/-- A chip awake and one whose order is broken, neither between two halves; a chip asleep and a word that
does not wake it. -/
theorem witness_ControlWordsPerturbNoOtherRegister :
    awake.fault.code = .none ∧ awake.chip.sleeping = false ∧ (∀ r lo, awake.chip.expects ≠ .upper r lo)
    ∧ (awake.chip.take 0 0x4000).sleeping = false
    ∧ (∀ r lo, (awake.chip.take 0 0x4000).expects ≠ .upper r lo)
    ∧ asleepNow.fault.code = .none ∧ asleepNow.chip.sleeping = true
    ∧ (CtrlBits.mk false false false false true false false false).sleep12 = true :=
  ⟨rfl, rfl, fun _ _ h => (by cases h), rfl, fun _ _ h => (by cases h), rfl, rfl, rfl⟩

/-- A chip in order, between updates and after a control word; and two different registers. -/
theorem witness_chip_in_order :
    awake.fault.code = .none ∧ awake.chip.inOrder ∧ (awake.chip.take 0 0x2000).inOrder
    ∧ Reg.reg1 ≠ Reg.reg0 ∧ Reg.reg0 ≠ Reg.reg1 :=
  ⟨rfl, .inl rfl, .inr rfl, by decide, by decide⟩

theorem witness_OperationsAreTheirExpansions :
    State.reset.fault.code = .none ∧ resolveSlot .reg1 .same = some .reg1
    ∧ resolveSlot .reg1 .reg0 = some .reg0 := by decide

/-- SetFrequency on an awake chip, and on one asleep that stays asleep. -/
theorem witness_SetFrequencyProgramsTheChip :
    (awake.fault.code = .none ∧ awake.chip.inOrder ∧ awake.chip.sleeping = false)
    ∧ ((asleepNow.setSleep true).fault.code = .none ∧ (asleepNow.setSleep true).chip.inOrder
      ∧ (asleepNow.setSleep true).ds.sleep = true) :=
  ⟨⟨rfl, .inl rfl, rfl⟩, ⟨rfl, .inl rfl, rfl⟩⟩

theorem witness_SetSourceSelectsBothSlots :
    State.reset.fault.code = .none ∧ SlotCode.same ≠ .illegal ∧ SlotCode.reg1 ≠ .illegal := by decide

/-- Every Write Sequencer operation completes without a fault: the hypotheses of ResetBitPersists and
WordsPerOperation, SETWAVE on the active slot and on the other. -/
theorem witness_frequency_operations_complete :
    (∃ t, execOp (.setFreq .reg0 (.rat 1000)) State.reset = .next t ∧ t.fault.code = .none)
    ∧ ∃ t, execOp (.incFreq .reg1 (.rat (-12500000))) State.reset = .next t ∧ t.fault.code = .none :=
  ⟨⟨setFrequency .reg0 1000 State.reset, rfl, rfl⟩,
    ⟨setFrequency .reg1 (State.reset.ds.freq.reg1 + -12500000) State.reset, rfl, rfl⟩⟩

theorem witness_phase_operations_complete :
    (∃ t, execOp (.setPhase .reg0 (.rat 90)) State.reset = .next t ∧ t.fault.code = .none)
    ∧ ∃ t, execOp (.incPhase .reg1 (.rat 100)) State.reset = .next t ∧ t.fault.code = .none :=
  ⟨⟨setPhaseDeg .reg0 90 State.reset, rfl, rfl⟩,
    ⟨setPhaseDeg .reg1 (State.reset.ds.phase.reg1 + 100) State.reset, rfl, rfl⟩⟩

theorem witness_mode_operations_complete :
    (∃ t, execOp (.setWave .reg0 .square) State.reset = .next t ∧ t.fault.code = .none)
    ∧ (∃ t, execOp (.setWave .reg1 .triangle) State.reset = .next t ∧ t.fault.code = .none)
    ∧ (∃ t, execOp (.enable true) State.reset = .next t ∧ t.fault.code = .none)
    ∧ (∃ t, execOp .reset State.reset = .next t ∧ t.fault.code = .none)
    ∧ (∃ t, execOp (.sleep true) State.reset = .next t ∧ t.fault.code = .none)
    ∧ ∃ t, execOp (.setSrc .reg1 .same) State.reset = .next t ∧ t.fault.code = .none :=
  ⟨⟨(State.reset.setWave .reg0 .square).emitControl, rfl, rfl⟩,
    ⟨State.reset.setWave .reg1 .triangle, rfl, rfl⟩,
    ⟨(State.reset.setOutEn true).emitControl, rfl, rfl⟩,
    ⟨(State.reset.deliver (.word rstw)).transmit rstw, rfl, rfl⟩,
    ⟨(State.reset.setSleep true).emitControl, rfl, rfl⟩,
    ⟨((State.reset.deliver (.slot .reg1)).setSource .reg1 .reg1).emitControl, rfl, rfl⟩⟩

end Sys2Proof.Tests
end

section
/-! The state across a step (10_state.md): no step writes the configuration, and every step keeps the
ranges of the Device State. Each fact is carried from the operations to the statement and from the
statement to the step. -/

namespace Sys2Proof.Machine

/-! ## The configuration (R21, R51) -/

/-- No statement writes `REF` or the construction parameters. -/
theorem runStmt_configuration {x : Stmt} {s t : State} (hf : s.fault.code = .none)
    (h : runStmt x s = .next t) :
    t.ref = s.ref ∧ t.squareD3Swap = s.squareD3Swap ∧ t.chipSelect = s.chipSelect := by
  rcases runStmt_next hf h with ⟨i, u, into, n, _, _, hu, rfl⟩ | ⟨o, _, ho⟩ | ⟨w, _, rfl⟩
  · obtain ⟨_, _, href, hswap, hcs, _⟩ := exec_frame hu
    exact ⟨href, hswap, hcs⟩
  · obtain ⟨_, _, href, hswap, hcs, _⟩ := execOp_frame ho
    exact ⟨href, hswap, hcs⟩
  · exact ⟨rfl, rfl, rfl⟩

/-- Settles O15: a step runs nothing, or one statement, which writes no configuration. -/
theorem noStepWritesTheConfiguration : Obligations.NoStepWritesTheConfiguration := by
  intro s t h
  obtain ⟨hf, ⟨_, rfl⟩ | ⟨x, rest, _, hx⟩⟩ := step_next h
  · exact ⟨rfl, rfl, rfl⟩
  · exact runStmt_configuration (s := { s with program := rest }) hf hx

/-! ## The ranges of the stored frequencies and phases (R28, R29) -/

/-- The ranges speak of the stored frequencies and phases alone. -/
theorem inRange_of_eq {ds ds' : DeviceState} (h : inRange ds) (hfreq : ds'.freq = ds.freq)
    (hphase : ds'.phase = ds.phase) : inRange ds' := by
  simpa only [inRange, hfreq, hphase] using h

/-- R33: the construction defaults are in range. -/
theorem deviceDefaults_inRange : inRange deviceDefaults := by
  intro r
  cases r <;> norm_num [deviceDefaults, Pair.get, Config.fMin, Config.fMax, Config.phaseTurn]

@[simp] theorem setFrequency_ds (r : Reg) (hz : Rat) (s : State) :
    (setFrequency r hz s).ds = { s.ds with freq := s.ds.freq.set r (fclamp hz) } := by
  simp [setFrequency]

@[simp] theorem setPhaseDeg_ds (r : Reg) (deg : Rat) (s : State) :
    (setPhaseDeg r deg s).ds = { s.ds with phase := s.ds.phase.set r (pnorm deg) } := by
  simp [setPhaseDeg]

/-- A Write Sequencer operation keeps the ranges: a frequency is stored clamped (R121), a phase
normalised (R123), and nothing else writes either. -/
theorem execOp_inRange {o : HostOp} {s t : State} (hr : inRange s.ds) (h : execOp o s = .next t) :
    inRange t.ds := by
  obtain ⟨_, ⟨_, _, _, rfl⟩ | ⟨r, q, rfl⟩ | ⟨r, q, rfl⟩ | ⟨_, _, _, rfl⟩ | ⟨_, _, _, rfl⟩ | ⟨_, rfl⟩
    | rfl | ⟨_, rfl⟩ | ⟨_, _, rfl⟩⟩ := execOp_next_cases h
  case inr.inl => rw [setFrequency_ds]; exact inRange_setFreq hr r q
  case inr.inr.inl => rw [setPhaseDeg_ds]; exact inRange_setPhase hr r q
  all_goals exact inRange_of_eq hr rfl rfl

/-- Every statement keeps the ranges: a request and an emitted word leave the Device State as it is. -/
theorem runStmt_inRange {x : Stmt} {s t : State} (hf : s.fault.code = .none) (hr : inRange s.ds)
    (h : runStmt x s = .next t) : inRange t.ds := by
  rcases runStmt_next hf h with ⟨i, u, into, n, _, _, hu, rfl⟩ | ⟨o, _, ho⟩ | ⟨w, _, rfl⟩
  · obtain ⟨_, _, _, _, _, hds, _⟩ := exec_frame hu
    rwa [State.bindNames_ds, hds]
  · exact execOp_inRange hr ho
  · exact hr

/-- Every step keeps the ranges. -/
theorem step_inRange {s t : State} (hr : inRange s.ds) (h : step s = .next t) : inRange t.ds := by
  obtain ⟨hf, ⟨_, rfl⟩ | ⟨x, rest, _, hx⟩⟩ := step_next h
  · exact hr
  · exact runStmt_inRange (s := { s with program := rest }) hf hr hx

/-- Settles O17: a rejected construction has no step (R142); from any other state the step keeps `REF`,
which no step writes, and the ranges. -/
theorem stepKeepsTheInvariant : Obligations.StepKeepsTheInvariant := by
  intro s t hinv h
  rcases hinv with hbad | ⟨hpos, hr⟩
  · obtain ⟨hf, _⟩ := step_next h
    rw [hf] at hbad
    cases hbad
  · obtain ⟨href, _⟩ := noStepWritesTheConfiguration s t h
    exact .inr ⟨href ▸ hpos, step_inRange hr h⟩

/-- Settles O16: the default reference is positive and the construction defaults are in range. -/
theorem resetMeetsTheInvariant : Obligations.ResetMeetsTheInvariant :=
  .inr ⟨by norm_num [State.reset, Config.refDefault], deviceDefaults_inRange⟩

/-! ## Requests (R23, R80) -/

/-- Settles O26: a request delivers one result or raises a fault, and writes nothing else. -/
theorem requestsWriteNoState : Obligations.RequestsWriteNoState := by
  intro s t i hi h
  obtain ⟨_, ⟨_, v, rfl⟩ | ⟨hword, _⟩ | ⟨_, code, info, _, rfl⟩⟩ := exec_next_cases h
  · rfl
  · rw [hi] at hword
    cases hword
  · rfl

end Sys2Proof.Machine
end

section
/-! What leaves the block (20_memory.md): the bytes of a word on the wire, the order in which steps hand
words and results over, and what a control word changes in the chip. -/

namespace Sys2Proof.Machine

/-! ## Bytes on the wire (R42, R43) -/

/-- The two bytes of a word spell it. -/
theorem wordOfBytes_wordBytes (w : Word) :
    wordOfBytes (w.extractLsb' 8 8) (w.extractLsb' 0 8) = w := by
  ext i hi
  by_cases hlow : i < 8
  · simp [wordOfBytes, hlow, BitVec.getLsbD_eq_getElem hi]
  · have hup : i - 8 < 8 := by omega
    have hsum : 8 + (i - 8) = i := by omega
    simp [wordOfBytes, hlow, hup, hsum, hi]

/-- The serial bits of the byte that starts at bit `k`, most significant first. -/
theorem byteSerial_extractLsb' (w : Word) (k : Nat) :
    byteSerial .msbFirst (w.extractLsb' k 8) = (List.range 8).map fun i => w.getLsbD (k + (7 - i)) := by
  refine List.map_congr_left fun i _ => ?_
  have hbit : 7 - i < 8 := by omega
  simp [hbit]

/-- Most significant bit first, the serial bits of a word are D15 down to D0: the upper byte's, then the
lower byte's. -/
theorem wordSerial_msbFirst (w : Word) :
    wordSerial .msbFirst w = (List.range 16).map fun i => w.getLsbD (15 - i) := by
  simp only [wordSerial, wordBytes, List.flatMap_cons, List.flatMap_nil, byteSerial_extractLsb']
  rfl

/-- Settles O9: the bytes are the definition's, they spell the word, and the serial order is decision
D13's. -/
theorem wordsGoMostSignificantByteFirst : Obligations.WordsGoMostSignificantByteFirst :=
  fun w => ⟨rfl, wordOfBytes_wordBytes w, wordSerial_msbFirst w⟩

/-! ## The order of steps (R48) -/

/-- A statement leaves the rest of the program, and only extends the emitted words and the results. -/
theorem runStmt_order {x : Stmt} {s t : State} (hf : s.fault.code = .none) (h : runStmt x s = .next t) :
    t.program = s.program ∧ s.emitted <+: t.emitted ∧ s.results <+: t.results := by
  rcases runStmt_next hf h with ⟨i, u, into, n, _, _, hu, rfl⟩ | ⟨o, _, ho⟩ | ⟨w, _, rfl⟩
  · obtain ⟨hprogram, _, _, _, _, _, hemitted, hresults⟩ := exec_frame hu
    exact ⟨hprogram, hemitted, hresults⟩
  · obtain ⟨hprogram, _, _, _, _, hemitted, hresults⟩ := execOp_frame ho
    exact ⟨hprogram, hemitted, hresults⟩
  · exact ⟨rfl, List.prefix_append _ _, List.prefix_rfl⟩

/-- Settles O14: a step changes nothing when no statement is pending, and otherwise runs the first one
with the others left to run. -/
theorem stepsKeepProgramOrder : Obligations.StepsKeepProgramOrder := by
  intro s t h
  obtain ⟨hf, ⟨hnil, rfl⟩ | ⟨x, rest, hcons, hx⟩⟩ := step_next h
  · exact ⟨by rw [hnil]; rfl, List.prefix_rfl, List.prefix_rfl⟩
  · rw [hcons]
    exact runStmt_order (s := { s with program := rest }) hf hx

/-! ## Control words at the chip (R47, R111, R155) -/

theorem exec_ctrl {s : State} (hf : s.fault.code = .none) (b : CtrlBits) :
    exec (.ctrl b) s = .next (s.transmit (controlWord true b)) := whenReady_of_ready hf _

theorem exec_rstWord {s : State} (hf : s.fault.code = .none) :
    exec .rstWord s = .next (s.transmit resetOnlyWord) := whenReady_of_ready hf _

/-- A word wakes neither a chip that is awake nor, with D7 or D6 set, any chip. -/
theorem Chip.wakes_eq_false {w : Word} {c : Chip}
    (h : c.sleeping = false ∨ w.getLsbD 7 = true ∨ w.getLsbD 6 = true) : c.wakes w = false := by
  rcases h with h | h | h <;> simp [Chip.wakes, wakeWord, h]

/-- A row that hands over `w`, which the chip takes as a control word, is a control-type write: it sets the
chip's three mode bits, spares the other registers where the model does not leave them open, and changes
nothing when it is repeated. -/
theorem exec_controlWrite {i : Instr} {w : Word} {b28 : Bool} {s : State} (hf : s.fault.code = .none)
    (hexec : ∀ {s : State}, s.fault.code = .none → exec i s = .next (s.transmit w))
    (htake : ∀ n (c : Chip), c.take n w = c.takeControl n w b28) :
    ∃ t, exec i s = .next t
      ∧ t.chip.last = .control ∧ t.chip.inReset = w.getLsbD 8 ∧ t.chip.clockOff = w.getLsbD 7
      ∧ t.chip.dacOff = w.getLsbD 6
      ∧ (s.chip.sleeping = false ∨ w.getLsbD 7 = true ∨ w.getLsbD 6 = true →
          t.chip.phase = s.chip.phase
          ∧ ((∀ r lo, s.chip.expects ≠ .upper r lo) → t.chip.freq = s.chip.freq))
      ∧ ∃ u, exec i t = .next u ∧ u.chip = t.chip := by
  have hchip : (s.transmit w).chip = s.chip.takeControl s.draws w b28 := htake _ _
  refine ⟨s.transmit w, hexec hf, ?_⟩
  rw [hchip]
  refine ⟨rfl, rfl, rfl, rfl, fun hawake => ?_, (s.transmit w).transmit w, hexec hf, ?_⟩
  · have hwakes := Chip.wakes_eq_false hawake
    exact ⟨Chip.takeControl_phase hwakes,
      fun hupper => Chip.takeControl_freq hwakes (Expects.not_betweenHalves hupper)⟩
  · rw [State.transmit_chip, htake, hchip, Chip.takeControl_twice]

/-- Settles O46: CTRL and RSTWORD both hand over a word that the chip takes as a control word. -/
theorem controlWordsPerturbNoOtherRegister : Obligations.ControlWordsPerturbNoOtherRegister := by
  intro s hf isControl
  constructor
  · intro b
    have hwrite := exec_controlWrite hf (fun h => exec_ctrl h b)
      fun n c => Chip.take_controlWord n true b c
    obtain ⟨_, hreset, hclock, hdac⟩ := controlWord_modeBits true b
    rwa [hreset, hclock, hdac] at hwrite
  · exact exec_controlWrite hf exec_rstWord Chip.take_resetOnlyWord

end Sys2Proof.Machine
end

section
/-! The encoding (30_encoding.md): the round trips of instructions and words, the operands that a selector
takes, the packed Device State, and the header of a word. -/

namespace Sys2Proof

/-! ## Round trips -/

/-- Settles O4: row by row, the model's round trips. -/
theorem decodeEncodeAgree : Obligations.DecodeEncodeAgree
  | .fclamp f => Laws.RoundTrip.fclamp f
  | .ftw f => Laws.RoundTrip.ftw f
  | .w2f w => Laws.RoundTrip.w2f w
  | .split w => Laws.RoundTrip.split w
  | .res => Laws.RoundTrip.res
  | .pnorm p => Laws.RoundTrip.pnorm p
  | .phw p => Laws.RoundTrip.phw p
  | .tagf x h => Laws.RoundTrip.tagf x h
  | .tagp x v => Laws.RoundTrip.tagp x v
  | .ccw c => Laws.RoundTrip.ccw c
  | .resolve fs ps => Laws.RoundTrip.resolve fs ps
  | .rstw => Laws.RoundTrip.rstw
  | .illegal0 => Laws.RoundTrip.illegal0
  | .illegalD => Laws.RoundTrip.illegalD
  | .illegalE => Laws.RoundTrip.illegalE
  | .illegalF => Laws.RoundTrip.illegalF
  | .ctrl b => Laws.RoundTrip.ctrl b
  | .rstWord => Laws.RoundTrip.rstWord
  | .freq0 h => Laws.RoundTrip.freq0 h
  | .freq1 h => Laws.RoundTrip.freq1 h
  | .phase0 v => Laws.RoundTrip.phase0 v
  | .phase1 v => Laws.RoundTrip.phase1 v

/-- Settles O5: each reading of a word rebuilds the word from its fields, and the row is spelled by the word
rebuilt. -/
theorem wordsDecodeUniquely : Obligations.WordsDecodeUniquely := by
  intro w i h
  unfold decodeWord at h
  split at h
  case h_1 b e => cases h; exact ⟨congrArg _ (readWord_control e).symm, rfl⟩
  case h_2 =>
    split at h
    · next hw => cases h; exact ⟨congrArg _ hw.symm, rfl⟩
    · cases h
  case h_3 v e => cases h; exact ⟨congrArg _ (readWord_freq e).symm, rfl⟩
  case h_4 v e => cases h; exact ⟨congrArg _ (readWord_freq e).symm, rfl⟩
  case h_5 v e => cases h; exact ⟨congrArg _ (readWord_phase e).symm, rfl⟩
  case h_6 v e => cases h; exact ⟨congrArg _ (readWord_phase e).symm, rfl⟩
  case h_7 => cases h

/-! ## Operands of selectors and pseudo-instructions (R54, R56, R58, R59, R70) -/

section
variable {α : Type} {p q : Position} {x y : Number} {i : α}

/-- A slot operand decodes exactly from the codes of R58. -/
theorem map_slot_iff {f : SlotCode → α} :
    ((presentField p 2 x).map fun c => f (SlotCode.ofCode c)) = .ok i
      ↔ ∃ s : SlotCode, x = .rat (s.code.toNat : Rat) ∧ i = f s :=
  map_field_iff.trans (exists_slotCode (P := fun c s => x = .rat (c.toNat : Rat) ∧ i = f s))

/-- A slot operand and a bit field. -/
theorem map_slot_field_iff {n : Nat} {f : SlotCode → BitVec n → α} :
    ((presentField p 2 x).bind fun c => (presentField q n y).map fun v => f (SlotCode.ofCode c) v) = .ok i
      ↔ ∃ (s : SlotCode) (v : BitVec n), x = .rat (s.code.toNat : Rat) ∧ y = .rat (v.toNat : Rat) ∧ i = f s v :=
  map_fields_iff.trans (exists_slotCode
    (P := fun c s => ∃ v : BitVec n, x = .rat (c.toNat : Rat) ∧ y = .rat (v.toNat : Rat) ∧ i = f s v))

/-- Two slot operands. -/
theorem map_slots_iff {f : SlotCode → SlotCode → α} :
    ((presentField p 2 x).bind fun c =>
        (presentField q 2 y).map fun d => f (SlotCode.ofCode c) (SlotCode.ofCode d)) = .ok i
      ↔ ∃ s t : SlotCode, x = .rat (s.code.toNat : Rat) ∧ y = .rat (t.code.toNat : Rat) ∧ i = f s t :=
  (map_slot_field_iff (f := fun s d => f s (SlotCode.ofCode d))).trans <|
    exists_congr fun s => exists_slotCode
      (P := fun d t => x = .rat (s.code.toNat : Rat) ∧ y = .rat (d.toNat : Rat) ∧ i = f s t)

/-- A slot operand and a waveform, which is its code of R59. -/
theorem map_slot_waveform_iff {f : SlotCode → Waveform → α} :
    ((presentField p 2 x).bind fun c =>
        (presentField q 2 y).map fun d => f (SlotCode.ofCode c) (Waveform.ofCode d)) = .ok i
      ↔ ∃ (s : SlotCode) (wf : Waveform),
          x = .rat (s.code.toNat : Rat) ∧ y = .rat (wf.code.toNat : Rat) ∧ i = f s wf :=
  (map_slot_field_iff (f := fun s d => f s (Waveform.ofCode d))).trans <|
    exists_congr fun s => exists_waveformCode
      (P := fun d wf => x = .rat (s.code.toNat : Rat) ∧ y = .rat (d.toNat : Rat) ∧ i = f s wf)

/-- A switch operand is the integer of one bit. -/
theorem map_switch_iff {f : Bool → α} :
    ((presentField p 1 x).map fun v => f (v.getLsbD 0)) = .ok i
      ↔ ∃ b : Bool, x = .rat (b.toNat : Rat) ∧ i = f b := by
  have hbit : ∀ v : BitVec 1, (v.getLsbD 0).toNat = v.toNat := by decide
  refine map_field_iff.trans ⟨fun ⟨v, hx, hi⟩ => ⟨v.getLsbD 0, by rwa [hbit], hi⟩, ?_⟩
  rintro ⟨b, hx, hi⟩
  exact ⟨BitVec.ofBool b, by rwa [BitVec.toNat_ofBool], by simpa using hi⟩

end

theorem decodeRequest_split_iff {a b : Number} {i : Instr} :
    decodeRequest ⟨0x4, a, b⟩ = .ok i ↔ ∃ w : Tuning, a = .rat (w.toNat : Rat) ∧ i = .split w := map_field_iff

theorem decodeRequest_tagf_iff {a b : Number} {i : Instr} :
    decodeRequest ⟨0x8, a, b⟩ = .ok i ↔ ∃ (x : SlotCode) (h : Half),
      a = .rat (x.code.toNat : Rat) ∧ b = .rat (h.toNat : Rat) ∧ i = .tagf x h := map_slot_field_iff

theorem decodeRequest_resolve_iff {a b : Number} {i : Instr} :
    decodeRequest ⟨0xB, a, b⟩ = .ok i ↔ ∃ x y : SlotCode,
      a = .rat (x.code.toNat : Rat) ∧ b = .rat (y.code.toNat : Rat) ∧ i = .resolve x y := map_slots_iff

/-- Settles O6: a selector picks its arm of the decoder whatever the operands, and the arm's operands are
fields, slots, waveforms and switches. -/
theorem opselAloneSelects : Obligations.OpselAloneSelects := fun _ _ =>
  ⟨rfl, rfl, rfl, fun _ => map_field_iff, fun _ => decodeRequest_split_iff, rfl, rfl, rfl,
    fun _ => decodeRequest_tagf_iff, fun _ => map_slot_field_iff, fun _ => map_field_iff,
    fun _ => decodeRequest_resolve_iff, rfl, rfl, rfl, rfl,
    fun _ => map_slot_iff (f := fun x => HostOp.setFreq x _),
    fun _ => map_slot_iff (f := fun x => HostOp.incFreq x _),
    fun _ => map_slot_iff (f := fun x => HostOp.setPhase x _),
    fun _ => map_slot_iff (f := fun x => HostOp.incPhase x _),
    fun _ => map_slot_waveform_iff, fun _ => map_switch_iff, rfl, fun _ => map_switch_iff,
    fun _ => map_slots_iff⟩

/-- Settles O7: an operand that is a bit field or a slot decodes from its integer, and the other spellings
evaluate. -/
theorem spellingsFromTheTablesDecode : Obligations.SpellingsFromTheTablesDecode := by
  refine ⟨rfl, decodeRequest_split_iff.mpr ⟨0x29F1, ?_, rfl⟩,
    decodeRequest_tagf_iff.mpr ⟨.reg1, 0x3FFF, ?_, ?_, rfl⟩,
    decodeRequest_resolve_iff.mpr ⟨.reg1, .same, ?_, ?_, rfl⟩, rfl, by decide⟩
  all_goals simp [SlotCode.code]

/-- Settles O8: the header is the two bits D15 and D14, so the four classes are its four values. -/
theorem headerSelectsTheWordClass : Obligations.HeaderSelectsTheWordClass := by
  intro w
  have h15 : w.getLsbD 15 = (w.extractLsb' 14 2).getLsbD 1 := by simp
  have h14 : w.getLsbD 14 = (w.extractLsb' 14 2).getLsbD 0 := by simp
  rw [h15, h14]
  unfold headerClass
  generalize w.extractLsb' 14 2 = header
  revert header
  decide

/-! ## The packed Device State (R60) -/

/-- Every field of a packed Device State, at its bits. -/
theorem packCiv_fields (ds : DeviceState) :
    (packCiv ds).getLsbD 0 = ds.fsel.isReg1 ∧ (packCiv ds).getLsbD 1 = ds.psel.isReg1
    ∧ (packCiv ds).extractLsb' 2 2 = ds.wave.reg0.code ∧ (packCiv ds).extractLsb' 4 2 = ds.wave.reg1.code
    ∧ (packCiv ds).getLsbD 6 = ds.outEn ∧ (packCiv ds).getLsbD 7 = ds.sleep := by
  unfold packCiv
  generalize ds.wave.reg0.code = w0
  generalize ds.wave.reg1.code = w1
  refine ⟨by simp, by simp, ?_, ?_, by simp, by simp⟩
  all_goals ext i hi; interval_cases i <;> simp

theorem Reg.isReg1_iff (r : Reg) : r.isReg1 = true ↔ r = .reg1 := by cases r <;> decide

/-- A Device State that a civ packs: its fields, and any frequencies and phases. -/
def unpackCiv (c : Civ) : DeviceState where
  freq := ⟨0, 0⟩
  phase := ⟨0, 0⟩
  wave := ⟨civWave c .reg0, civWave c .reg1⟩
  outEn := civOutEn c
  sleep := civSleep c
  fsel := civFsel c
  psel := civPsel c

/-- A civ is its six fields. -/
theorem civ_ext {c d : Civ} (hfsel : c.getLsbD 0 = d.getLsbD 0) (hpsel : c.getLsbD 1 = d.getLsbD 1)
    (hwave0 : c.extractLsb' 2 2 = d.extractLsb' 2 2) (hwave1 : c.extractLsb' 4 2 = d.extractLsb' 4 2)
    (houtEn : c.getLsbD 6 = d.getLsbD 6) (hsleep : c.getLsbD 7 = d.getLsbD 7) : c = d := by
  have h2 : c.getLsbD 2 = d.getLsbD 2 := by simpa using congrArg (·.getLsbD 0) hwave0
  have h3 : c.getLsbD 3 = d.getLsbD 3 := by simpa using congrArg (·.getLsbD 1) hwave0
  have h4 : c.getLsbD 4 = d.getLsbD 4 := by simpa using congrArg (·.getLsbD 0) hwave1
  have h5 : c.getLsbD 5 = d.getLsbD 5 := by simpa using congrArg (·.getLsbD 1) hwave1
  apply BitVec.eq_of_getLsbD_eq
  intro i hi
  interval_cases i <;> assumption

theorem packCiv_unpackCiv (c : Civ) : packCiv (unpackCiv c) = c := by
  obtain ⟨h0, h1, h2, h4, h6, h7⟩ := packCiv_fields (unpackCiv c)
  simp only [unpackCiv, civFsel, civPsel, civWave, civOutEn, civSleep, Reg.isReg1_ofBit,
    Waveform.code_ofCode] at h0 h1 h2 h4 h6 h7
  exact civ_ext h0 h1 h2 h4 h6 h7

/-- Settles O10: the fields stand at their bits, and unpacking a civ gives a Device State that packs to it. -/
theorem packCarriesEveryField : Obligations.PackCarriesEveryField := by
  refine ⟨fun ds => ?_, fun c => ⟨unpackCiv c, packCiv_unpackCiv c⟩, by decide⟩
  obtain ⟨hfsel, hpsel, hfields⟩ := packCiv_fields ds
  rw [hfsel, hpsel, Reg.isReg1_iff, Reg.isReg1_iff]
  exact ⟨Iff.rfl, Iff.rfl, hfields⟩

end Sys2Proof
end

section
/-! Running an encoded statement (30_encoding.md): what a pending statement does with its operands decoded,
the words the output rows hand over, the composed control words, and the Write Sequencer operations as their
expansions. -/

namespace Sys2Proof.Machine

/-! ## Statements whose operands denote numbers (R53, R69, R70) -/

/-- From a state without a fault, a step runs the first pending statement. -/
theorem step_of_pending {s : State} {x : Stmt} {rest : List Stmt} (hf : s.fault.code = .none)
    (hp : s.program = x :: rest) : step s = runStmt x { s with program := rest } := by
  simp only [step, whenReady_of_ready hf, hp]

/-- An operand that denotes a number reads as the number where its slot is used, and as 0 where it is not. -/
theorem fetchArg_of_denotes {s : State} {a : Arg} {x : Number} (h : s.denotes a x) (u : Bool)
    (k : Number → Out) : fetchArg u a s k = k (if u then x else .rat 0) := by
  rw [fetchArg_denotes h, fetchArg_lit]

section
variable {s : State} {a b : Arg} {x y : Number}

/-- A request decodes the numbers that its operands denote. -/
theorem runStmt_request (ha : s.denotes a x) (hb : s.denotes b y) (o : BitVec 4) (into : List Name) :
    runStmt (.request o a b into) s
      = withDecoded (decodeRequest ⟨o, x, y⟩) fun i => bindAfter into s.results.length (exec i s) := by
  rw [runStmt, fetchArg_of_denotes ha, fetchArg_of_denotes hb]
  simp only [decide_eq_true_eq, decodeRequest_unused]

/-- A pseudo-instruction decodes the numbers that its operands denote. -/
theorem runStmt_op (ha : s.denotes a x) (hb : s.denotes b y) (k : OpKind) :
    runStmt (.op k a b) s = withDecoded (decodeOp k x y) fun o => execOp o s := by
  rw [runStmt, fetchArg_of_denotes ha, fetchArg_of_denotes hb]
  simp only [decide_eq_true_eq, decodeOp_unused]

/-- `EMIT` hands over the word that its operand denotes. -/
theorem runStmt_emit (ha : s.denotes a x) :
    runStmt (.emit a) s = withDecoded (presentField .a 16 x) fun w => execWord w s := by
  rw [runStmt, fetchArg_of_denotes ha, if_pos rfl]

end

/-- A literal denotes itself. -/
theorem denotes_lit (s : State) (x : Number) : s.denotes (.lit x) x := .inl rfl

/-- With no names after the arrow nothing is bound. -/
theorem bindAfter_nil (n : Nat) (o : Out) : bindAfter [] n o = o := by cases o <;> rfl

/-- The statement that spells an instruction runs it. -/
theorem runStmt_stmtOf {e : Encoded} {i : Instr} (h : decode e = .ok i) (s : State) :
    runStmt (stmtOf e) s = exec i s := by
  cases e with
  | request r =>
    have hr : decodeRequest ⟨r.opsel, r.a, r.b⟩ = .ok i := h
    rw [stmtOf, runStmt_request (denotes_lit s _) (denotes_lit s _), hr, withDecoded, bindAfter_nil]
  | word w =>
    have hw : decodeWord w = .ok i := h
    rw [stmtOf, runStmt_emit (denotes_lit s _), presentField_ofField, withDecoded, execWord, hw]

/-- Settles O11: the pending statement's operands are literals, which denote themselves. -/
theorem stepRunsTheDecodedInstruction : Obligations.StepRunsTheDecodedInstruction := by
  refine ⟨fun s e i rest hf hp he => ?_, fun s k a b o rest hf hp ho => ?_, fun s hf hp => ?_⟩
  · rw [step_of_pending hf hp, runStmt_stmtOf he]
  · rw [step_of_pending hf hp, runStmt_op (denotes_lit _ a) (denotes_lit _ b), ho, withDecoded]
  · simp only [step, whenReady_of_ready hf, hp]

/-- The names after an arrow take the values of the one result delivered since. -/
theorem bindNames_of_result {t : State} {before : List Result} {v : Result} (h : t.results = before ++ [v])
    (into : List Name) :
    t.bindNames into before.length = { t with names := into.zip v.values ++ t.names } := by
  simp [State.bindNames, h]

/-- A step sees of its first statement only what running it answers. -/
theorem step_congr {s : State} {x y : Stmt} {rest : List Stmt}
    (h : runStmt x { s with program := rest } = runStmt y { s with program := rest }) :
    step { s with program := x :: rest } = step { s with program := y :: rest } := by
  by_cases hf : s.fault.code = .none
  · exact (step_of_pending (s := { s with program := x :: rest }) hf rfl).trans
      (h.trans (step_of_pending (s := { s with program := y :: rest }) hf rfl).symm)
  · exact (whenReady_of_faulted (s := { s with program := x :: rest }) hf _).trans
      (whenReady_of_faulted (s := { s with program := y :: rest }) hf _).symm

/-- Settles O12: a statement reads its operands only through the numbers they denote, and a request that
delivered one result binds the values of that result. -/
theorem namesCarryResults : Obligations.NamesCarryResults := by
  constructor
  · intro s t o a b x y i v into rest hf hp ha hb hi ht hv
    rw [step_of_pending hf hp, runStmt_request (s := { s with program := rest }) ha hb, hi, withDecoded, ht,
      bindAfter, bindNames_of_result hv]
  · intro s a b x y rest ha hb
    have ha' : State.denotes { s with program := rest } a x := ha
    have hb' : State.denotes { s with program := rest } b y := hb
    refine ⟨fun o into => step_congr ?_, fun k => step_congr ?_, step_congr ?_⟩
    · rw [runStmt_request ha' hb', runStmt_request (denotes_lit _ x) (denotes_lit _ y)]
    · rw [runStmt_op ha' hb', runStmt_op (denotes_lit _ x) (denotes_lit _ y)]
    · rw [runStmt_emit ha', runStmt_emit (denotes_lit _ x)]

/-! ## Composed control words (R63, R104, R107) -/

theorem getLsbD_bitAt {n : Nat} (hn : n < 16) (b : Bool) (i : Nat) :
    (bitAt n b).getLsbD i = (decide (i = n) && b) := by
  by_cases hi : i = n
  · simp [bitAt, hi, hn]
  · have hzero : n ≤ i → i - n ≠ 0 := by omega
    simp +contextual [bitAt, hi, hzero]

/-- What a bit is after one bit of the word was written (R9). -/
theorem getLsbD_writeBit (w : Word) {n : Nat} (hn : n < 16) (b : Bool) (i : Nat) :
    (writeBit w n b).getLsbD i = if i = n then b else w.getLsbD i := by
  by_cases hi : i = n
  · simp [writeBit, getLsbD_bitAt hn, hi, hn, -BitVec.getLsbD_eq_getElem]
  · simpa [writeBit, getLsbD_bitAt hn, hi, -BitVec.getLsbD_eq_getElem] using BitVec.lt_of_getLsbD

/-- The named bits of a composed word: selectors, output and sleep from the civ, the waveform's bits from the
base pattern. -/
theorem ctrlBits_ccw (swap : Bool) (c : Civ) :
    ctrlBits (ccw swap c)
      = { fsel := (civFsel c).isReg1, psel := (civPsel c).isReg1, reset := !civOutEn c,
          sleep1 := civSleep c, sleep12 := civSleep c,
          opbiten := (basePattern swap (civWave c (civFsel c))).getLsbD 5,
          div2 := (basePattern swap (civWave c (civFsel c))).getLsbD 3,
          mode := (basePattern swap (civWave c (civFsel c))).getLsbD 1 } := by
  simp [ctrlBits, ccw, getLsbD_writeBit, -BitVec.getLsbD_eq_getElem]

/-- Settles O42: a composed word is the control word of its own bits. D7 and D6 carry one flag, and D5, D3 and
D1 stand in the base pattern, in one of four combinations. -/
theorem composedWordsAreLegalControlWords : Obligations.ComposedWordsAreLegalControlWords := by
  intro swap c
  refine ⟨ctrlBits (ccw swap c), ?_, ?_⟩
  · conv_lhs => rw [ccw_eq_controlWord]
    exact Laws.RoundTrip.ctrl (ctrlBits (ccw swap c))
  · rw [ctrlBits_ccw]
    cases swap <;> cases civWave c (civFsel c) <;> cases civSleep c <;> rfl

/-! ## Output words (R63, R65, R66, R110, R119) -/

/-- Header, D13 and unnamed bits of a control word with D13 (R62, R63, R64). -/
theorem controlWord_fixedBits (b : CtrlBits) : controlWord true b &&& 0xF215 = 0x2000 := by
  obtain ⟨f, p, r, s, t, o, d, m⟩ := b
  revert f p r s t o d m
  decide

/-- Settles O45: each row transmits the word of its table. -/
theorem outputWordsAreHandedOver : Obligations.OutputWordsAreHandedOver := by
  intro s hf handsOver
  have hands {i : Instr} {w : Word} (h : exec i s = .next (s.transmit w)) : handsOver i w := ⟨_, h⟩
  refine ⟨fun b => ⟨controlWord true b, hands (exec_ctrl hf b), controlWord_fixedBits b, ?_⟩,
    hands (exec_rstWord hf), fun h => hands (exec_freqInstr hf .reg0 h),
    fun h => hands (exec_freqInstr hf .reg1 h), fun v => hands (exec_phaseInstr hf .reg0 v),
    fun v => hands (exec_phaseInstr hf .reg1 v)⟩
  have hb := ctrlBits_controlWord true b
  exact ⟨congrArg CtrlBits.fsel hb, congrArg CtrlBits.psel hb, congrArg CtrlBits.reset hb,
    congrArg CtrlBits.sleep1 hb, congrArg CtrlBits.sleep12 hb, congrArg CtrlBits.opbiten hb,
    congrArg CtrlBits.div2 hb, congrArg CtrlBits.mode hb⟩

/-- Settles O47: the chip takes the row's word as a phase word, and in order writes only the register named. -/
theorem phaseWordsWriteOnePhaseRegister : Obligations.PhaseWordsWriteOnePhaseRegister := by
  intro s r r' v hf hne
  refine ⟨_, exec_phaseInstr hf r v, ?_⟩
  rw [State.transmit_chip, Chip.take_phaseDataWord]
  refine ⟨Chip.takePhase_control _ _ _ _, Chip.takePhase_last _ _ _ _, fun hin => ?_⟩
  obtain ⟨hphase, hfreq⟩ := Chip.takePhase_inOrder_registers hin s.draws r v
  rw [hphase]
  exact ⟨Pair.get_set_self _ _ _, Pair.get_set_ne _ _ hne, hfreq, Chip.takePhase_inOrder hin _ _ _⟩

/-! ## Write Sequencer operations as their expansions (R70, R119) -/

section
variable {s : State} (hf : s.fault.code = .none)
include hf

theorem exec_fclamp (f : Rat) : exec (.fclamp (.rat f)) s = .next (s.deliver (.hz (fclamp f))) :=
  whenReady_of_ready hf _

theorem exec_ftw (f : Rat) : exec (.ftw (.rat f)) s = .next (s.deliver (.tuning (ftw s.ref f))) :=
  whenReady_of_ready hf _

theorem exec_split (w : Tuning) :
    exec (.split w) s = .next (s.deliver (.halves (splitLo w) (splitUp w))) := whenReady_of_ready hf _

theorem exec_pnorm (p : Rat) : exec (.pnorm (.rat p)) s = .next (s.deliver (.degrees (pnorm p))) :=
  whenReady_of_ready hf _

theorem exec_phw (p : Rat) : exec (.phw (.rat p)) s = .next (s.deliver (.phase (phw p))) :=
  whenReady_of_ready hf _

theorem exec_tagf (r : Reg) (h : Half) :
    exec (.tagf r.toSlot h) s = .next (s.deliver (.word (tagf r h))) :=
  (whenReady_of_ready hf _).trans (withRegister_toSlot _ r _ _)

theorem exec_tagp (r : Reg) (v : PhaseWord) :
    exec (.tagp r.toSlot v) s = .next (s.deliver (.word (tagp r v))) :=
  (whenReady_of_ready hf _).trans (withRegister_toSlot _ r _ _)

theorem exec_ccw (c : Civ) : exec (.ccw c) s = .next (s.deliver (.word (ccw s.squareD3Swap c))) :=
  whenReady_of_ready hf _

theorem exec_rstw : exec .rstw s = .next (s.deliver (.word rstw)) := whenReady_of_ready hf _

theorem exec_resolve {fs q : Reg} {ps : SlotCode} (h : resolveSlot fs ps = some q) :
    exec (.resolve fs.toSlot ps) s = .next (s.deliver (.slot q)) := by
  simp only [exec, execResolve, whenReady_of_ready hf, withRegister_toSlot, withPhaseSelector, h]

/-- Composing the live control word and handing it over is the operations' last step. -/
theorem execAll_emitControl : execAll [.ccw (packCiv s.ds), controlInstr s] s = .next s.emitControl := by
  simp only [execAll, exec_ccw, exec_controlInstr, State.deliver_fault, hf]
  rfl

end

/-- SETFREQ is its requests, then its three words. -/
theorem execOp_setFreq_expansion {s : State} (hf : s.fault.code = .none) (r : Reg) (hz : Rat) :
    execOp (.setFreq r.toSlot (.rat hz)) s
      = execAll [.fclamp (.rat hz), .ftw (.rat (fclamp hz)), .split (ftw s.ref (fclamp hz)),
          .ccw (packCiv (s.setFreq r (fclamp hz)).ds),
          .tagf r.toSlot (splitLo (ftw s.ref (fclamp hz))), .tagf r.toSlot (splitUp (ftw s.ref (fclamp hz))),
          controlInstr (s.setFreq r (fclamp hz)), freqInstr r (splitLo (ftw s.ref (fclamp hz))),
          freqInstr r (splitUp (ftw s.ref (fclamp hz)))] (s.setFreq r (fclamp hz)) := by
  simp only [execOp, execSetFreq, whenReady_of_ready hf, withRegister_toSlot, withNumber]
  simp only [execAll, exec_fclamp, exec_ftw, exec_split, exec_ccw, exec_tagf, exec_controlInstr, exec_freqInstr,
    State.deliver_fault, State.transmit_fault, State.setFreq_fault, hf]
  rfl

/-- SETPHASE is its requests, then its word. -/
theorem execOp_setPhase_expansion {s : State} (hf : s.fault.code = .none) (r : Reg) (deg : Rat) :
    execOp (.setPhase r.toSlot (.rat deg)) s
      = execAll [.pnorm (.rat deg), .phw (.rat deg), .tagp r.toSlot (phw deg), phaseInstr r (phw deg)]
          (s.setPhase r (pnorm deg)) := by
  simp only [execOp, execSetPhase, whenReady_of_ready hf, withRegister_toSlot, withNumber]
  simp only [execAll, exec_pnorm, exec_phw, exec_tagp, exec_phaseInstr, State.deliver_fault,
    State.setPhase_fault, hf]
  rfl

/-- INCFREQ is SETFREQ of the sum with the stored frequency (R122). -/
theorem execOp_incFreq (s : State) (r : Reg) (d : Rat) :
    execOp (.incFreq r.toSlot (.rat d)) s = execOp (.setFreq r.toSlot (.rat (s.ds.freq.get r + d))) s := by
  simp only [execOp, execIncFreq, execSetFreq, withRegister_toSlot, addTo]

/-- INCPHASE is SETPHASE of the sum with the stored phase (R124). -/
theorem execOp_incPhase (s : State) (r : Reg) (d : Rat) :
    execOp (.incPhase r.toSlot (.rat d)) s = execOp (.setPhase r.toSlot (.rat (s.ds.phase.get r + d))) s := by
  simp only [execOp, execIncPhase, execSetPhase, withRegister_toSlot, addTo]

/-- SETWAVE is a control word for the active slot, and nothing for the other one. -/
theorem execOp_setWave_expansion {s : State} (hf : s.fault.code = .none) (r : Reg) (wf : Waveform) :
    execOp (.setWave r.toSlot wf) s
      = execAll (if r = s.ds.fsel then [.ccw (packCiv (s.setWave r wf).ds), controlInstr (s.setWave r wf)]
          else []) (s.setWave r wf) := by
  simp only [execOp, execSetWave, whenReady_of_ready hf, withRegister_toSlot]
  split
  · exact (execAll_emitControl (s := s.setWave r wf) hf).symm
  · rfl

/-- RESET is its request, then the reset-only word. -/
theorem execOp_reset_expansion {s : State} (hf : s.fault.code = .none) :
    execOp .reset s = execAll [.rstw, .rstWord] s := by
  simp only [execOp, execReset, whenReady_of_ready hf, execAll, exec_rstw, exec_rstWord, State.deliver_fault, hf]
  rfl

/-- SETSRC is RESOLVE, then the control word. -/
theorem execOp_setSrc_expansion {s : State} (hf : s.fault.code = .none) {fs q : Reg} {ps : SlotCode}
    (h : resolveSlot fs ps = some q) :
    execOp (.setSrc fs.toSlot ps) s
      = execAll [.resolve fs.toSlot ps, .ccw (packCiv (s.setSource fs q).ds), controlInstr (s.setSource fs q)]
          (s.setSource fs q) := by
  simp only [execOp, execSetSrc, whenReady_of_ready hf, withRegister_toSlot, withPhaseSelector, h]
  simp only [execAll, exec_resolve (s := s.setSource fs q) hf h]
  exact (execAll_emitControl (s := (s.setSource fs q).deliver (.slot q)) hf).symm

/-- Settles O49: operation by operation, its expansion. -/
theorem operationsAreTheirExpansions : Obligations.OperationsAreTheirExpansions := fun s hf =>
  ⟨execOp_setFreq_expansion hf, execOp_incFreq s, execOp_setPhase_expansion hf, execOp_incPhase s,
    execOp_setWave_expansion hf,
    fun b => (whenReady_of_ready hf _).trans (execAll_emitControl (s := s.setOutEn b) hf).symm,
    execOp_reset_expansion hf,
    fun b => (whenReady_of_ready hf _).trans (execAll_emitControl (s := s.setSleep b) hf).symm,
    fun _ _ _ => execOp_setSrc_expansion hf⟩

end Sys2Proof.Machine
end

section
/-! The codec (40_codec.md): its result functions as the rules write them, the nearest-grid-point laws of FTW
and W2F, and the whole turns that the phase operations do not see. -/

namespace Sys2Proof.Machine

/-! ## The result functions, as their rules write them (R82, R84, R86, R88 to R90) -/

/-- The scale 2^28 of the tuning words (R7). -/
theorem ftwScale_eq : Config.ftwScale = 2 ^ 28 := by norm_num [Config.ftwScale]

theorem toNat_ftw (ref f : Rat) : ((ftw ref f).toNat : Int) = roundAway (f * 2 ^ 28 / ref) % 2 ^ 28 := by
  rw [ftw, toNat_ofInt, ftwQuotient, ftwScale_eq]

theorem w2f_eq (ref : Rat) (w : Tuning) : w2f ref w = w.toNat * ref / 2 ^ 28 := by rw [w2f, ftwScale_eq]

theorem resolution_eq (ref : Rat) : resolution ref = ref / 2 ^ 28 := by rw [resolution, ftwScale_eq]

/-- The frequency step is the grid's first point (R88). -/
theorem resolution_eq_w2f_one (ref : Rat) : resolution ref = w2f ref 1 := by
  rw [resolution_eq, w2f_eq, show (1 : Tuning).toNat = 1 from rfl, Nat.cast_one, one_mul]

theorem toNat_splitLo (w : Tuning) : (splitLo w).toNat = w.toNat % 2 ^ 14 := by
  simp [splitLo]

theorem toNat_splitUp (w : Tuning) : (splitUp w).toNat = w.toNat / 2 ^ 14 := by
  have := w.isLt
  simp only [splitUp, BitVec.extractLsb'_toNat, Nat.shiftRight_eq_div_pow]
  omega

/-- PNORM takes whole turns away from its operand (R89). -/
theorem pnorm_eq_sub_turns (p : Rat) : ∃ k : Int, pnorm p = p - 360 * k := ⟨(p / 360).floor, rfl⟩

theorem toNat_phw (p : Rat) : ((phw p).toNat : Int) = roundAway (pnorm p * 4096 / 360) % 4096 :=
  toNat_ofInt 12 _

/-- PHW reads its operand through PNORM alone (R90). -/
theorem phw_congr {p q : Rat} (h : pnorm p = pnorm q) : phw p = phw q := by simp only [phw, h]

/-! ## One request, one result (R81 to R90) -/

section
variable {s : State} (hf : s.fault.code = .none)
include hf

theorem exec_w2f (w : Tuning) : exec (.w2f w) s = .next (s.deliver (.hz (w2f s.ref w))) :=
  whenReady_of_ready hf _

theorem exec_res : exec .res s = .next (s.deliver (.hz (resolution s.ref))) := whenReady_of_ready hf _

end

/-- Settles O27: the clamp of R81. -/
theorem fclampClampsToTheRange : Obligations.FclampClampsToTheRange := fun _ f hf =>
  ⟨fun _ => rfl, exec_fclamp hf f⟩

/-- Settles O28: the integer is `round` of the quotient, which is to nearest in every state. -/
theorem ftwRoundsAndMasks : Obligations.FtwRoundsAndMasks := fun s f hf =>
  ⟨roundAway (f * 2 ^ 28 / s.ref), ftw s.ref f, roundAway_nearest _, toNat_ftw s.ref f, exec_ftw hf f⟩

/-- Settles O30: the exact product. -/
theorem w2fScalesExactly : Obligations.W2fScalesExactly := fun s w hf => by
  rw [← w2f_eq]
  exact exec_w2f hf w

/-- Settles O32: the halves are `splitLo` and `splitUp`, and a word's integer presents the word. -/
theorem splitGivesHalvesThatReassemble : Obligations.SplitGivesHalvesThatReassemble := fun _ w hf =>
  ⟨fun _ => decodeRequest_split_iff.mpr ⟨w, rfl, rfl⟩, splitLo w, splitUp w, toNat_splitLo w,
    toNat_splitUp w, reassemble_halves w, reassemble_halves w, exec_split hf w⟩

/-- Settles O33: RES and W2F of 1 deliver one value. -/
theorem resIsTheFrequencyStep : Obligations.ResIsTheFrequencyStep := fun s hf => by
  refine ⟨fun _ _ => rfl, ?_, ?_⟩
  · rw [← resolution_eq]
    exact exec_res hf
  · rw [exec_res hf, exec_w2f hf, resolution_eq_w2f_one]

/-- Settles O34: the floored modulo takes whole turns away and lies in [0, 360). -/
theorem pnormWrapsIntoOneTurn : Obligations.PnormWrapsIntoOneTurn := fun _ p hf => by
  obtain ⟨k, hk⟩ := pnorm_eq_sub_turns p
  obtain ⟨hnonneg, hlt⟩ := pnorm_bounds p
  exact ⟨fun _ => rfl, k, pnorm p, hk, hnonneg, hlt, exec_pnorm hf p⟩

/-- Settles O35: PNORM, then `round` to nearest, then the mask to 12 bits. -/
theorem phwRoundsAndWraps : Obligations.PhwRoundsAndWraps := fun _ p hf => by
  obtain ⟨k, hk⟩ := pnorm_eq_sub_turns p
  obtain ⟨hnonneg, hlt⟩ := pnorm_bounds p
  exact ⟨k, _, pnorm p, phw p, hk, hnonneg, hlt, roundAway_nearest _, toNat_phw p, exec_phw hf p⟩

/-! ## Whole turns (R91) -/

/-- Whatever the state, PNORM's answer depends on its result function alone. -/
theorem exec_pnorm_congr {p q : Rat} (h : pnorm p = pnorm q) (s : State) :
    exec (.pnorm (.rat p)) s = exec (.pnorm (.rat q)) s := by
  simp only [exec, execPnorm, withNumber, h]

/-- Whatever the state, PHW's answer depends on the normalised phase alone. -/
theorem exec_phw_congr {p q : Rat} (h : pnorm p = pnorm q) (s : State) :
    exec (.phw (.rat p)) s = exec (.phw (.rat q)) s := by
  simp only [exec, execPhw, withNumber, phw_congr h]

/-- Settles O36: PNORM does not see whole turns and is idempotent, and PHW reads through it. -/
theorem phaseIsPeriodic : Obligations.PhaseIsPeriodic := fun s p k =>
  ⟨exec_phw_congr (pnorm_add_turns p k) s, exec_pnorm_congr (pnorm_add_turns p k) s,
    exec_phw_congr (pnorm_pnorm p).symm s, Nat.le_of_lt_succ (phw p).isLt, by norm_num⟩

/-! ## FTW on the wrap-free interval (R83) -/

/-- On the wrap-free interval the tuning word is an integer nearest to the quotient, a tie going away from
zero. -/
theorem ftw_nearestAway {ref f : Rat} (hlo : -1 / 2 < f * 2 ^ 28 / ref)
    (hhi : f * 2 ^ 28 / ref < 2 ^ 28 - 1 / 2) :
    NearestAway (ftw ref f).toNat (f * 2 ^ 28 / ref) := by
  rw [ftw_eq_round hlo hhi]
  exact roundAway_nearest _

theorem ftwQuotient_le {ref f g : Rat} (href : 0 < ref) (h : f ≤ g) :
    f * 2 ^ 28 / ref ≤ g * 2 ^ 28 / ref := by gcongr

/-- FTW is monotone on the wrap-free interval (R83 (b)). -/
theorem ftw_mono {ref f g : Rat} (href : 0 < ref) (hlo : -1 / 2 < f * 2 ^ 28 / ref)
    (hhi : g * 2 ^ 28 / ref < 2 ^ 28 - 1 / 2) (h : f ≤ g) : (ftw ref f).toNat ≤ (ftw ref g).toNat := by
  have hq := ftwQuotient_le href h
  have hround := roundAway_mono hq
  rw [← ftw_eq_round hlo (hq.trans_lt hhi), ← ftw_eq_round (hlo.trans_le hq) hhi] at hround
  exact_mod_cast hround

/-- The quotient of the largest frequency stays below the wrap exactly for the references of R83 (d). -/
theorem fMax_quotient_lt_iff {ref : Rat} (href : 0 < ref) :
    12500000 * 2 ^ 28 / ref < 2 ^ 28 - 1 / 2 ↔ 12500000 / (1 - 1 / 2 ^ 29) < ref := by
  rw [div_lt_iff₀ href, div_lt_iff₀ (by norm_num)]
  constructor <;> intro h <;> linarith

/-- The clamp range lies in the wrap-free interval for a reference above the bound of R83 (d). -/
theorem clampRange_wrapFree {ref f : Rat} (href : 12500000 / (1 - 1 / 2 ^ 29) < ref) (hmin : 1 / 10 ≤ f)
    (hmax : f ≤ 12500000) : -1 / 2 < f * 2 ^ 28 / ref ∧ f * 2 ^ 28 / ref < 2 ^ 28 - 1 / 2 := by
  have hpos : 0 < ref := lt_trans (by norm_num) href
  constructor
  · have hq : 0 ≤ f * 2 ^ 28 / ref := by positivity
    linarith
  · exact (ftwQuotient_le hpos hmax).trans_lt ((fMax_quotient_lt_iff hpos).mpr href)

/-- Settles O29: on the wrap-free interval FTW is the rounded quotient. -/
theorem ftwLawsOnTheWrapFreeInterval : Obligations.FtwLawsOnTheWrapFreeInterval := by
  refine ⟨fun ref f => Nat.le_sub_one_of_lt (ftw ref f).isLt,
    fun _ _ _ href hlo hhi h => ftw_mono href hlo hhi h, fun ref f _ hlo hhi => ?_,
    fun _ _ href hmin hmax => clampRange_wrapFree href hmin hmax, by decide +kernel⟩
  rw [abs_sub_comm]
  exact_mod_cast (ftw_nearestAway hlo hhi).1

/-! ## The frequency round trip (R85) -/

/-- The error of a grid point in hertz is its error in steps, scaled by the step `REF / 2^28`. -/
theorem abs_w2f_sub {ref : Rat} (href : 0 < ref) (f : Rat) (w : Tuning) :
    |w2f ref w - f| = |f * 2 ^ 28 / ref - w.toNat| * (ref / 2 ^ 28) := by
  have hstep : 0 ≤ ref / 2 ^ 28 := by positivity
  have hscale : f - w2f ref w = (f * 2 ^ 28 / ref - w.toNat) * (ref / 2 ^ 28) := by
    rw [w2f_eq]
    field_simp
  rw [abs_sub_comm, hscale, abs_mul, abs_of_nonneg hstep]

/-- A nearest integer is no farther than any other. -/
theorem NearestAway.abs_sub_le_abs_sub {n : Int} {x : Rat} (h : NearestAway n x) (m : Int) :
    |x - n| ≤ |x - m| := by
  obtain ⟨hhalf, -⟩ := h
  rcases eq_or_ne n m with rfl | hne
  · exact le_rfl
  · have hgap : (1 : Rat) ≤ |(n : Rat) - m| := by exact_mod_cast Int.one_le_abs (sub_ne_zero.mpr hne)
    have htri : |(n : Rat) - m| ≤ |x - n| + |x - m| := by
      simpa only [abs_sub_comm x (n : Rat)] using abs_sub_le (n : Rat) x m
    linarith

/-- Of two integers equally near to a number that is not negative, the one that rounds away from zero is the
larger. -/
theorem NearestAway.le_of_tie {n m : Int} {x : Rat} (h : NearestAway n x) (hx : 0 ≤ x)
    (htie : |x - n| = |x - m|) : m ≤ n := by
  by_contra! hlt
  obtain ⟨hhalf, haway⟩ := h
  have hgap : (n : Rat) + 1 ≤ m := by exact_mod_cast hlt
  have hx_eq : x - n = 1 / 2 := by
    obtain ⟨-, hn⟩ := abs_le.mp hhalf
    obtain ⟨hm, -⟩ := abs_le.mp (htie ▸ hhalf)
    linarith
  have hn : 0 ≤ n := by
    have : (-1 : Rat) < n := by linarith
    have : -1 < n := by exact_mod_cast this
    omega
  have hbeyond := haway (by rw [hx_eq]; norm_num)
  rw [abs_of_nonneg hx, abs_of_nonneg (by exact_mod_cast hn)] at hbeyond
  linarith

/-- Below the wrap-free interval the tuning word is farther than half a step from the quotient: at its end
-1/2 the quotient rounds to -1, which wraps. -/
theorem half_lt_abs_of_below {ref f : Rat} (h : f * 2 ^ 28 / ref ≤ -1 / 2) :
    1 / 2 < |f * 2 ^ 28 / ref - (ftw ref f).toNat| := by
  by_contra! hle
  have hw := toNat_ftw ref f
  generalize f * 2 ^ 28 / ref = x at *
  obtain ⟨hlo, -⟩ := abs_le.mp hle
  have hzero : (ftw ref f).toNat = 0 := by
    have : ((ftw ref f).toNat : Rat) ≤ 0 := by linarith
    exact_mod_cast le_antisymm this (Nat.cast_nonneg _)
  rw [hzero, Nat.cast_zero] at hlo
  obtain rfl : x = -1 / 2 := by linarith
  rw [hzero, show roundAway (-1 / 2) = -1 by decide +kernel] at hw
  omega

/-- Above the wrap-free interval the tuning word is farther than a whole step from the quotient: one step
away the quotient would round to 2^28, which wraps to 0. -/
theorem one_lt_abs_of_above {ref f : Rat} (h : 2 ^ 28 - 1 / 2 ≤ f * 2 ^ 28 / ref) :
    1 < |f * 2 ^ 28 / ref - (ftw ref f).toNat| := by
  by_contra! hle
  have hw := toNat_ftw ref f
  generalize f * 2 ^ 28 / ref = x at *
  obtain ⟨-, hhi⟩ := abs_le.mp hle
  have hmax : ((ftw ref f).toNat : Rat) + 1 ≤ 2 ^ 28 := by exact_mod_cast (ftw ref f).isLt
  have hround : roundAway x = 2 ^ 28 := by
    apply le_antisymm
    · rw [← show roundAway (2 ^ 28) = 2 ^ 28 by decide +kernel]
      exact roundAway_mono (by linarith)
    · rw [← show roundAway (2 ^ 28 - 1 / 2) = 2 ^ 28 by decide +kernel]
      exact roundAway_mono h
  have hzero : (ftw ref f).toNat = 0 := by
    rw [hround] at hw
    omega
  rw [hzero, Nat.cast_zero] at hhi
  linarith

/-- On the wrap-free interval the round trip is within half a step, no grid point is nearer, and of two equally
near ones the larger is taken where `f ≥ 0` (R85). -/
theorem roundTrip_nearest {ref f : Rat} (href : 0 < ref) (hlo : -1 / 2 < f * 2 ^ 28 / ref)
    (hhi : f * 2 ^ 28 / ref < 2 ^ 28 - 1 / 2) :
    |w2f ref (ftw ref f) - f| ≤ ref / 2 ^ 29
    ∧ ∀ k : Tuning, |w2f ref (ftw ref f) - f| ≤ |w2f ref k - f|
      ∧ (0 ≤ f → |w2f ref (ftw ref f) - f| = |w2f ref k - f| → k.toNat ≤ (ftw ref f).toNat) := by
  have hstep : 0 < ref / 2 ^ 28 := by positivity
  have hnear := ftw_nearestAway hlo hhi
  simp only [abs_w2f_sub href, mul_le_mul_iff_left₀ hstep, mul_left_inj' hstep.ne']
  refine ⟨?_, fun k => ⟨hnear.abs_sub_le_abs_sub k.toNat, fun hf htie => ?_⟩⟩
  · obtain ⟨hhalf, -⟩ := hnear
    calc _ ≤ 1 / 2 * (ref / 2 ^ 28) := by gcongr; exact hhalf
      _ = ref / 2 ^ 29 := by ring
  · exact_mod_cast hnear.le_of_tie (m := k.toNat) (by positivity) htie

/-- Outside the wrap-free interval the round trip is off by more than half a step. -/
theorem roundTrip_far {ref f : Rat} (href : 0 < ref)
    (h : f * 2 ^ 28 / ref ≤ -1 / 2 ∨ 2 ^ 28 - 1 / 2 ≤ f * 2 ^ 28 / ref) :
    ref / 2 ^ 29 < |w2f ref (ftw ref f) - f| := by
  have hhalf : 1 / 2 < |f * 2 ^ 28 / ref - (ftw ref f).toNat| := by
    rcases h with hbelow | habove
    · exact half_lt_abs_of_below hbelow
    · exact lt_trans (by norm_num) (one_lt_abs_of_above habove)
  rw [abs_w2f_sub href]
  calc ref / 2 ^ 29 = 1 / 2 * (ref / 2 ^ 28) := by ring
    _ < _ := by gcongr

/-- Up to the reference bound of R83 (d) the largest frequency lies above the wrap-free interval, and its round
trip is off by more than a whole step. -/
theorem roundTrip_fMax_far {ref : Rat} (href : 0 < ref) (hle : ref ≤ 12500000 / (1 - 1 / 2 ^ 29)) :
    ref / 2 ^ 28 < |w2f ref (ftw ref 12500000) - 12500000| := by
  have habove := one_lt_abs_of_above (not_lt.mp (mt (fMax_quotient_lt_iff href).mp hle.not_gt))
  rw [abs_w2f_sub href]
  exact lt_mul_left (by positivity) habove

/-- Settles O31: the word is the integer nearest to the quotient where the mask does not wrap; elsewhere the
wrapped word is far from the quotient, for the largest frequency by more than a step. -/
theorem frequencyRoundTripIsNearest : Obligations.FrequencyRoundTripIsNearest :=
  ⟨fun _ _ href hlo hhi => roundTrip_nearest href hlo hhi, fun _ _ href h => roundTrip_far href h,
    fun _ href hle => ⟨12500000, by norm_num, le_rfl, roundTrip_fMax_far href hle⟩, by decide +kernel,
    by decide +kernel⟩

end Sys2Proof.Machine
end

section
/-! The tagging requests (41_output_words.md): the bits of a word by what it reads as, and with them the words
that TAGF and TAGP deliver. -/

namespace Sys2Proof

/-! ## The header and payload of a data word (R62, R65, R66) -/

theorem headerClass_eq_freq_iff {w : Word} {r : Reg} :
    headerClass w = .freq r ↔ w.extractLsb' 14 2 = if r = .reg0 then 0b01 else 0b10 := by
  unfold headerClass
  generalize w.extractLsb' 14 2 = header
  revert header
  cases r <;> decide

theorem headerClass_eq_phase_iff {w : Word} : headerClass w = .phase ↔ w.extractLsb' 14 2 = 0b11 := by
  unfold headerClass
  generalize w.extractLsb' 14 2 = header
  revert header
  decide

/-- A word reads as a frequency half by its header and its low 14 bits. -/
theorem readWord_eq_freq_iff {w : Word} {r : Reg} {h : Half} :
    readWord w = .freq r h ↔ headerClass w = .freq r ∧ w.extractLsb' 0 14 = h := by
  unfold readWord
  cases headerClass w <;> dsimp only
  case control => split <;> simp
  case freq => simp
  case phase => split <;> simp

theorem Reg.ofBit_eq_iff {b : Bool} {r : Reg} : Reg.ofBit b = r ↔ b = r.isReg1 := by
  cases b <;> cases r <;> decide

/-- A word reads as a phase word by its header, its D13, a clear D12 and its low 12 bits. -/
theorem readWord_eq_phase_iff {w : Word} {r : Reg} {v : PhaseWord} :
    readWord w = .phase r v ↔ headerClass w = .phase ∧ w.getLsbD 13 = r.isReg1 ∧ w.getLsbD 12 = false
      ∧ w.extractLsb' 0 12 = v := by
  unfold readWord
  cases headerClass w <;> dsimp only
  case control => split <;> simp
  case freq => simp
  case phase => cases hclear : w.getLsbD 12 <;> simp [Reg.ofBit_eq_iff]

theorem Reg.isReg1_eq_decide (r : Reg) : r.isReg1 = decide (r = .reg1) := by cases r <;> rfl

theorem freqWord_eq (r : Reg) (h : Half) :
    freqWord r h = (if r = .reg0 then 0x4000 else 0x8000) ||| h.zeroExtend 16 := by cases r <;> rfl

theorem phaseDataWord_eq (r : Reg) (v : PhaseWord) :
    phaseDataWord r v = 0xC000 ||| (if r = .reg1 then 0x2000 else 0) ||| v.zeroExtend 16 := by cases r <;> rfl

namespace Machine

/-! ## The words that the tagging requests deliver (R97 to R100) -/

/-- Settles O37: the word is the frequency data word, which reads back as its register and half. -/
theorem tagfTagsTheHalf : Obligations.TagfTagsTheHalf := by
  intro s r h hf
  obtain ⟨hclass, hhalf⟩ := readWord_eq_freq_iff.mp (readWord_freqWord r h)
  exact ⟨freqWord r h, exec_tagf hf r h, freqWord_eq r h, headerClass_eq_freq_iff.mp hclass, hhalf, hclass⟩

/-- Settles O38: the word is the phase data word, which reads back as its register and phase word. -/
theorem tagpTagsThePhaseWord : Obligations.TagpTagsThePhaseWord := by
  intro s r v hf
  obtain ⟨hclass, hslot, hclear, hphase⟩ := readWord_eq_phase_iff.mp (readWord_phaseDataWord r v)
  rw [Reg.isReg1_eq_decide] at hslot
  exact ⟨phaseDataWord r v, exec_tagp hf r v, phaseDataWord_eq r v, headerClass_eq_phase_iff.mp hclass, hslot,
    hclear, hphase⟩

end Machine
end Sys2Proof
end

section
/-! The composer (42_composer.md): a composed control word as the fields of R63 that the civ chooses, and with
it the laws of CCW and its closed form; RESOLVE and RSTW. -/

namespace Sys2Proof

theorem Waveform.ofCode_eq_iff {code : BitVec 2} {wf : Waveform} : Waveform.ofCode code = wf ↔ code = wf.code :=
  ⟨fun h => h ▸ (Waveform.code_ofCode code).symm, fun h => h ▸ Waveform.ofCode_code wf⟩

/-- The waveform of the active frequency slot is named by the two bits that the civ's bit 0 selects (R60). -/
theorem civWave_civFsel (c : Civ) :
    civWave c (civFsel c)
      = Waveform.ofCode (if c.getLsbD 0 then c.extractLsb' 4 2 else c.extractLsb' 2 2) := by
  unfold civFsel
  cases c.getLsbD 0 <;> rfl

/-- The bits of a control word with D13, from D15 down to D0 (R62, R63, R64). -/
theorem controlWord_bits (b : CtrlBits) :
    let w := controlWord true b
    w.extractLsb' 14 2 = 0 ∧ w.getLsbD 13 = true ∧ w.getLsbD 12 = false
      ∧ w.getLsbD 11 = b.fsel ∧ w.getLsbD 10 = b.psel ∧ w.getLsbD 9 = false
      ∧ w.getLsbD 8 = b.reset ∧ w.getLsbD 7 = b.sleep1 ∧ w.getLsbD 6 = b.sleep12
      ∧ w.getLsbD 5 = b.opbiten ∧ w.getLsbD 4 = false ∧ w.getLsbD 3 = b.div2
      ∧ w.getLsbD 2 = false ∧ w.getLsbD 1 = b.mode ∧ w.getLsbD 0 = false := by
  obtain ⟨f, p, r, s, t, o, d, m⟩ := b
  revert f p r s t o d m
  decide

theorem controlWord_reservedBits (b : CtrlBits) : controlWord true b &&& 0x1215 = 0 :=
  calc controlWord true b &&& 0x1215 = controlWord true b &&& 0xF215 &&& 0x1215 := by
        rw [BitVec.and_assoc]; rfl
    _ = 0 := by rw [Machine.controlWord_fixedBits]; rfl

theorem controlWord_injective {b28 : Bool} : Function.Injective (controlWord b28) :=
  Function.LeftInverse.injective (ctrlBits_controlWord b28)

namespace Machine

/-! ## A composed word as its fields (R63, R104, R105) -/

/-- The fields of the control word for a waveform, the two selectors, the output flag and the sleep flag. -/
def composedBits (swap : Bool) (wf : Waveform) (fsel psel outEn sleep : Bool) : CtrlBits where
  fsel := fsel
  psel := psel
  reset := !outEn
  sleep1 := sleep
  sleep12 := sleep
  opbiten := decide (wf = .square ∨ wf = .halfSquare)
  div2 := decide (wf = if swap then .square else .halfSquare)
  mode := decide (wf = .triangle)

/-- The waveform's bits in its base pattern (R105). -/
theorem basePattern_modeBits (swap : Bool) (wf : Waveform) :
    (basePattern swap wf).getLsbD 5 = decide (wf = .square ∨ wf = .halfSquare)
    ∧ (basePattern swap wf).getLsbD 3 = decide (wf = if swap then .square else .halfSquare)
    ∧ (basePattern swap wf).getLsbD 1 = decide (wf = .triangle) := by
  cases swap <;> cases wf <;> decide

/-- A composed word is the control word of the fields its civ chooses. -/
theorem ccw_eq_composed (swap : Bool) (c : Civ) :
    ccw swap c = controlWord true
      (composedBits swap (civWave c (civFsel c)) (c.getLsbD 0) (c.getLsbD 1) (c.getLsbD 6) (c.getLsbD 7)) := by
  obtain ⟨hopbiten, hdiv2, hmode⟩ := basePattern_modeBits swap (civWave c (civFsel c))
  rw [ccw_eq_controlWord, ctrlBits_ccw, hopbiten, hdiv2, hmode]
  simp only [composedBits, civFsel, civPsel, civOutEn, civSleep, Reg.isReg1_ofBit]

/-- The bits of a composed word, from D15 down to D0; `wf` is the code of the active waveform. -/
theorem ccw_bits (swap : Bool) (c : Civ) :
    let wf : BitVec 2 := if c.getLsbD 0 then c.extractLsb' 4 2 else c.extractLsb' 2 2
    let w := ccw swap c
    w.extractLsb' 14 2 = 0 ∧ w.getLsbD 13 = true ∧ w.getLsbD 12 = false
      ∧ w.getLsbD 11 = c.getLsbD 0 ∧ w.getLsbD 10 = c.getLsbD 1 ∧ w.getLsbD 9 = false
      ∧ w.getLsbD 8 = !c.getLsbD 6 ∧ w.getLsbD 7 = c.getLsbD 7 ∧ w.getLsbD 6 = c.getLsbD 7
      ∧ w.getLsbD 5 = decide (wf = 2 ∨ wf = 3) ∧ w.getLsbD 4 = false
      ∧ w.getLsbD 3 = decide (wf = if swap then 2 else 3)
      ∧ w.getLsbD 2 = false ∧ w.getLsbD 1 = decide (wf = 1) ∧ w.getLsbD 0 = false := by
  have hbits := controlWord_bits
    (composedBits swap (civWave c (civFsel c)) (c.getLsbD 0) (c.getLsbD 1) (c.getLsbD 6) (c.getLsbD 7))
  rw [← ccw_eq_composed, civWave_civFsel] at hbits
  simp only [composedBits, Waveform.ofCode_eq_iff, apply_ite Waveform.code] at hbits
  exact hbits

/-- Settles O39: CCW delivers the composed word, whose bits are its fields. -/
theorem ccwComposesEveryBit : Obligations.CcwComposesEveryBit := fun s c hf =>
  ⟨ccw s.squareD3Swap c, exec_ccw hf c, ccw_bits s.squareD3Swap c⟩

/-! ## The laws of CCW (R107) -/

theorem ccw_reservedBits (swap : Bool) (c : Civ) : ccw swap c &&& 0x1215 = 0 := by
  rw [ccw_eq_controlWord]
  exact controlWord_reservedBits _

/-- A run of CCW that completes delivered the composed word, so it reads nothing of the state but the D3
parameter. -/
theorem exec_ccw_results {c : Civ} {s t : State} (h : exec (.ccw c) s = .next t) :
    t.results = s.results ++ [.word (ccw s.squareD3Swap c)] := by
  obtain ⟨hf, _⟩ := exec_next_cases h
  rw [exec_ccw hf] at h
  cases h
  rfl

/-- Settles O40: the laws (a) to (f) are read off the bits; (g) is that the composed word depends on the
active waveform alone, and CCW's result on the composed word. -/
theorem ccwLaws : Obligations.CcwLaws := by
  intro swap c
  obtain ⟨hheader, h13, -, -, -, -, h8, h7, h6, h5, -, h3, -, h1, -⟩ := ccw_bits swap c
  refine ⟨hheader, fun hout => ?reset, fun hout hawake => ?awake, h13, ccw_reservedBits swap c, ?exclusive,
    ?within, fun d h0 h1 h6 h7 hwave => ?active, fun s t _ hswap hresults s' t' hs ht => ?runs⟩
  case reset => rw [h8, hout]; rfl
  case awake => rw [h8, h7, h6, hout, hawake]; exact ⟨rfl, rfl, rfl⟩
  case exclusive =>
    rw [h5, h1, decide_eq_true_eq, decide_eq_true_eq]
    rintro ⟨h | h, htri⟩ <;> rw [h] at htri <;> exact absurd htri (by decide)
  case within =>
    rw [h3, h5, decide_eq_true_eq, decide_eq_true_eq]
    intro h
    cases swap
    · exact .inr h
    · exact .inl h
  case active => exact ccw_congr h0 h1 h6 h7 (by rw [civWave_civFsel, civWave_civFsel, hwave])
  case runs => rw [exec_ccw_results hs, exec_ccw_results ht, hswap, hresults]

/-! ## The closed form (R108) -/

/-- The composed word as the OR of the closed form. -/
theorem composed_closedForm (wf : Waveform) (fsel psel outEn sleep : Bool) :
    controlWord true (composedBits false wf fsel psel outEn sleep)
      = 0x2000 ||| (if wf = .triangle then 0x0002 else 0)
        ||| (if wf = .square ∨ wf = .halfSquare then 0x0020 else 0)
        ||| (if wf = .halfSquare then 0x0008 else 0)
        ||| (if fsel then 0x0800 else 0) ||| (if psel then 0x0400 else 0)
        ||| (if outEn then 0 else 0x0100) ||| (if sleep then 0x00C0 else 0) := by
  cases wf <;> revert fsel psel outEn sleep <;> decide

theorem composed_bounds (wf : Waveform) (fsel psel outEn sleep : Bool) :
    0x2000 ≤ (controlWord true (composedBits false wf fsel psel outEn sleep)).toNat
    ∧ (controlWord true (composedBits false wf fsel psel outEn sleep)).toNat ≤ 0x2DE8 := by
  cases wf <;> revert fsel psel outEn sleep <;> decide

/-- What a composed word depends on: the active waveform's code, the two selectors and the two flags. -/
abbrev Choice := BitVec 2 × Bool × Bool × Bool × Bool

/-- The word composed from a choice. -/
def Choice.word : Choice → Word
  | (wf, fsel, psel, outEn, sleep) => controlWord true (composedBits false (.ofCode wf) fsel psel outEn sleep)

/-- Different choices compose different words: every part of the choice shows in a field. -/
theorem Choice.word_injective : Function.Injective Choice.word := by
  rintro ⟨wf, fsel, psel, outEn, sleep⟩ ⟨wf', fsel', psel', outEn', sleep'⟩ h
  replace h := controlWord_injective h
  simp only [composedBits, CtrlBits.mk.injEq, Bool.not_inj_iff] at h
  obtain ⟨rfl, rfl, rfl, rfl, -, hopbiten, hdiv2, hmode⟩ := h
  have hwave : wf = wf' := by
    revert hopbiten hdiv2 hmode
    revert wf wf'
    decide
  rw [hwave]

/-- A Device State that makes a choice, with the waveform in both slots. -/
def Choice.deviceState : Choice → DeviceState
  | (wf, fsel, psel, outEn, sleep) =>
    { deviceDefaults with
      wave := ⟨.ofCode wf, .ofCode wf⟩, outEn, sleep, fsel := .ofBit fsel, psel := .ofBit psel }

theorem ccw_packCiv_deviceState (x : Choice) : ccw false (packCiv x.deviceState) = x.word := by
  obtain ⟨hfsel, hpsel, hwave0, hwave1, houtEn, hsleep⟩ := packCiv_fields x.deviceState
  rw [ccw_eq_composed, civWave_civFsel, hfsel, hpsel, hwave0, hwave1, houtEn, hsleep]
  simp [Choice.deviceState, Choice.word]

/-- The composed words are the words of the choices. -/
theorem toFinset_ccw :
    ((List.range 256).map fun n => ccw false (BitVec.ofNat 8 n)).toFinset
      = Finset.univ.image Choice.word := by
  ext w
  simp only [List.mem_toFinset, List.mem_map, List.mem_range, Finset.mem_image, Finset.mem_univ, true_and]
  constructor
  · rintro ⟨n, -, rfl⟩
    exact ⟨(_, _, _, _, _), by rw [ccw_eq_composed, civWave_civFsel]; rfl⟩
  · rintro ⟨x, rfl⟩
    exact ⟨(packCiv x.deviceState).toNat, BitVec.isLt _,
      by rw [BitVec.ofNat_toNat, BitVec.setWidth_eq, ccw_packCiv_deviceState]⟩

/-- The distinct words are as many as the choices: four waveforms, two selectors and two flags. -/
theorem ccw_distinct :
    (((List.range 256).map fun n => ccw false (BitVec.ofNat 8 n)).dedup).length = 64 := by
  rw [← List.card_toFinset, toFinset_ccw, Finset.card_image_of_injective _ Choice.word_injective]
  rfl

/-- Settles O41: a composed word is the closed form of its fields. The least word is that of 0x40 (output on),
the greatest that of 0xB3 (REG1 in both selectors, HALF_SQUARE, output off, asleep). -/
theorem ccwClosedForm : Obligations.CcwClosedForm := by
  refine ⟨fun c => ?_, ccw_distinct, fun c => ?_, ⟨0x40, by decide⟩, ⟨0xB3, by decide⟩⟩
  · rw [ccw_eq_composed]
    exact composed_closedForm _ _ _ _ _
  · rw [ccw_eq_composed]
    exact composed_bounds _ _ _ _ _

/-! ## RESOLVE and RSTW (R109, R110) -/

theorem resolveSlot_toSlot (fs ps : Reg) : resolveSlot fs ps.toSlot = some ps := by cases ps <;> rfl

/-- Settles O43: a register resolves to itself, SAME to the frequency slot. -/
theorem resolveNeverAnswersSame : Obligations.ResolveNeverAnswersSame := fun _ fs hf =>
  ⟨fun ps => exec_resolve hf (resolveSlot_toSlot fs ps), exec_resolve (fs := fs) (q := fs) hf rfl⟩

/-- Settles O44: RSTW delivers the reset-only word, whose header bits are clear. -/
theorem rstwIsTheResetOnlyWord : Obligations.RstwIsTheResetOnlyWord := fun _ hf =>
  ⟨exec_rstw hf, by decide⟩

end Machine
end Sys2Proof
end

section
/-! The host sequences (45_host_sequences.md): construction, EMIT, the faults of the Write Sequencer operations
at their entry, what each operation does to the Device State and the emitted words, and the chip after it. -/

namespace Sys2Proof

theorem Pair.set_set {α : Type} (p : Pair α) (r : Reg) (x y : α) : (p.set r x).set r y = p.set r y := by
  cases r <;> rfl

namespace Machine

theorem Reg.toSlot_inj {r r' : Reg} : r.toSlot = r'.toSlot ↔ r = r' :=
  ⟨Reg.toSlot_injective, congrArg Reg.toSlot⟩

/-! ## Construction and EMIT (R69, R119, R120) -/

/-- R120: a positive reference is latched, beside the parameter and the designator, on the reset state. -/
theorem construct_of_pos (cs : Nat) {ref : Rat} (h : 0 < ref) (swap : Bool) :
    construct cs ref swap = { State.reset with ref := ref, squareD3Swap := swap, chipSelect := cs } := if_pos h

/-- Settles O1: the construction is the reset state with its three arguments. -/
theorem constructionLatchesReference : Obligations.ConstructionLatchesReference := by
  intro cs ref swap h
  rw [construct_of_pos cs h]
  exact ⟨rfl, rfl, rfl, rfl, rfl, rfl, rfl, rfl, rfl, rfl, rfl, rfl, rfl, rfl,
    construct_of_pos 0 (by norm_num) false⟩

/-- Settles O13: the literal presents the word, and a word of any row or none is handed over. -/
theorem emitHandsOverAnyWord : Obligations.EmitHandsOverAnyWord := by
  intro s w rest hf hp
  have hpresent : presentField .a 16 (.rat (w.toNat : Rat)) = .ok w := presentField_ofField .a w
  rw [step_of_pending hf hp, runStmt_emit (denotes_lit _ _), hpresent, withDecoded,
    execWord_eq (s := { s with program := rest }) hf]
  exact ⟨_, rfl⟩

/-! ## Faults (R119, R130, R142, R146) -/

/-- An instruction that completes raised its fault, or left FAULT as it was. -/
theorem exec_raised_or_fault {i : Instr} {s t : State} (h : exec i s = .next t) :
    s.fault.code = .none ∧ (Raised s t ∨ t.fault = s.fault) := by
  obtain ⟨hf, ⟨_, _, rfl⟩ | ⟨_, _, rfl⟩ | ⟨_, hraised⟩⟩ := exec_next_cases h
  · exact ⟨hf, .inr rfl⟩
  · exact ⟨hf, .inr rfl⟩
  · exact ⟨hf, .inl hraised⟩

@[simp] theorem setFrequency_fault (r : Reg) (hz : Rat) (s : State) : (setFrequency r hz s).fault = s.fault := by
  simp [setFrequency]

@[simp] theorem setPhaseDeg_fault (r : Reg) (deg : Rat) (s : State) : (setPhaseDeg r deg s).fault = s.fault := by
  simp [setPhaseDeg]

/-- A Write Sequencer operation that completes raised its fault, or left FAULT as it was. -/
theorem execOp_raised_or_fault {o : HostOp} {s t : State} (h : execOp o s = .next t) :
    s.fault.code = .none ∧ (Raised s t ∨ t.fault = s.fault) := by
  obtain ⟨hf, hraised | ⟨_, _, rfl⟩ | ⟨_, _, rfl⟩ | ⟨_, _, _, rfl⟩ | ⟨_, _, _, rfl⟩ | ⟨_, rfl⟩
    | rfl | ⟨_, rfl⟩ | ⟨_, _, rfl⟩⟩ := execOp_next_cases h
  case inl => exact ⟨hf, .inl hraised⟩
  all_goals exact ⟨hf, .inr (by simp)⟩

/-- What ends with a fault from a state without one raised it, and so changed FAULT alone. -/
theorem eq_of_raised_or_fault {s t : State} (ht : t.fault.code ≠ .none)
    (h : s.fault.code = .none ∧ (Raised s t ∨ t.fault = s.fault)) : t = { s with fault := t.fault } := by
  obtain ⟨hf, ⟨_, _, _, rfl⟩ | hsame⟩ := h
  · rfl
  · exact absurd (hsame ▸ hf) ht

/-- Settles O20: both meanings raise a fault or leave FAULT as it was. -/
theorem raisedFaultChangesOnlyFault : Obligations.RaisedFaultChangesOnlyFault := fun _ _ ht =>
  ⟨fun _ h => eq_of_raised_or_fault ht (exec_raised_or_fault h),
    fun _ h => eq_of_raised_or_fault ht (execOp_raised_or_fault h)⟩

/-- The exact sum is finite where the operand is. -/
theorem addTo_isFinite (q : Rat) (x : Number) : (addTo q x).isFinite = x.isFinite := by cases x <;> rfl

theorem withNumber_of_nonfinite {x : Number} (hx : x.isFinite = false) (p : Position) (s : State)
    (k : Rat → Out) : withNumber p x s k = raise .nonfiniteInput (.operand p) s := by
  rcases withNumber_cases p x s k with ⟨q, rfl, _⟩ | ⟨_, h⟩
  · cases hx
  · exact h

theorem withRegister_of_not_isRegister {x : SlotCode} (hx : x.isRegister = false) (p : Position) (s : State)
    (k : Reg → Out) : withRegister p x s k = raise .illegalSlot (.slot p x) s := by
  rcases withRegister_cases p x s k with ⟨r, rfl, _⟩ | ⟨_, h⟩
  · cases r <;> cases hx
  · exact h

section
variable {s : State} (hf : s.fault.code = .none)
include hf

/-- An operation whose slot is no register raises ILLEGAL_SLOT, whatever it would go on with. -/
theorem entry_illegalSlot {x : SlotCode} (hx : x.isRegister = false) (k : Reg → Out) :
    whenReady s (withRegister .a x s k) = .next { s with fault := ⟨.illegalSlot, .slot .a x⟩ } := by
  rw [whenReady_of_ready hf, withRegister_of_not_isRegister hx, raise]

/-- An operation whose slot is a register and whose number is not finite raises NONFINITE_INPUT. -/
theorem entry_nonfinite (r : Reg) {x : Reg → Number} (hx : (x r).isFinite = false) (k : Reg → Rat → Out) :
    whenReady s (withRegister .a r.toSlot s fun r => withNumber .a (x r) s (k r))
      = .next { s with fault := ⟨.nonfiniteInput, .operand .a⟩ } := by
  rw [whenReady_of_ready hf, withRegister_toSlot, withNumber_of_nonfinite hx, raise]

/-- SETSRC with the illegal code as its phase slot (R109). -/
theorem execOp_setSrc_illegal (r : Reg) :
    execOp (.setSrc r.toSlot .illegal) s = .next { s with fault := ⟨.illegalSlot, .slot .b .illegal⟩ } :=
  (whenReady_of_ready hf _).trans (withRegister_toSlot _ r _ _)

end

/-- Settles O24: every operation with a slot checks it first, and its number next. -/
theorem hostOperationsRaiseAtEntry : Obligations.HostOperationsRaiseAtEntry := by
  refine fun s hf => ⟨fun x hx n wf y => ?_, execOp_setSrc_illegal hf, fun r n hn => ?_⟩
  · have hx : x.isRegister = false := by rcases hx with rfl | rfl <;> rfl
    exact ⟨entry_illegalSlot hf hx _, entry_illegalSlot hf hx _, entry_illegalSlot hf hx _,
      entry_illegalSlot hf hx _, entry_illegalSlot hf hx _, entry_illegalSlot hf hx _⟩
  · have hn : n.isFinite = false := by rcases hn with rfl | rfl | rfl <;> rfl
    have hsum (q : Rat) : (addTo q n).isFinite = false := (addTo_isFinite q n).trans hn
    exact ⟨entry_nonfinite hf r (x := fun _ => n) hn _,
      entry_nonfinite hf r (x := fun r => addTo (s.ds.freq.get r) n) (hsum _) _,
      entry_nonfinite hf r (x := fun _ => n) hn _,
      entry_nonfinite hf r (x := fun r => addTo (s.ds.phase.get r) n) (hsum _) _⟩

/-! ## What the operations leave (R121 to R129) -/

/-- SetWaveform for a register (R125): the selection is stored, and the active slot's is emitted. -/
def setWaveform (r : Reg) (wf : Waveform) (s : State) : State :=
  if r = s.ds.fsel then (s.setWave r wf).emitControl else s.setWave r wf

/-- What a Write Sequencer operation that completes without a fault does (R121 to R129). -/
def Completes (s t : State) : HostOp → Prop
  | .setFreq x hz => ∃ r q, x = r.toSlot ∧ hz = .rat q ∧ t = setFrequency r q s
  | .incFreq x d => ∃ r q, x = r.toSlot ∧ addTo (s.ds.freq.get r) d = .rat q ∧ t = setFrequency r q s
  | .setPhase x deg => ∃ r q, x = r.toSlot ∧ deg = .rat q ∧ t = setPhaseDeg r q s
  | .incPhase x d => ∃ r q, x = r.toSlot ∧ addTo (s.ds.phase.get r) d = .rat q ∧ t = setPhaseDeg r q s
  | .setWave x wf => ∃ r, x = r.toSlot ∧ t = setWaveform r wf s
  | .enable b => t = (s.setOutEn b).emitControl
  | .reset => t = (s.deliver (.word rstw)).transmit rstw
  | .sleep b => t = (s.setSleep b).emitControl
  | .setSrc x y => ∃ r q, x = r.toSlot ∧ resolveSlot r y = some q
      ∧ t = ((s.deliver (.slot q)).setSource r q).emitControl

section
variable {s : State} (hf : s.fault.code = .none)
include hf

theorem execOp_setFreq (r : Reg) (hz : Rat) :
    execOp (.setFreq r.toSlot (.rat hz)) s = .next (setFrequency r hz s) :=
  (whenReady_of_ready hf _).trans (withRegister_toSlot _ r _ _)

theorem execOp_setPhase (r : Reg) (deg : Rat) :
    execOp (.setPhase r.toSlot (.rat deg)) s = .next (setPhaseDeg r deg s) :=
  (whenReady_of_ready hf _).trans (withRegister_toSlot _ r _ _)

theorem execOp_setWave (r : Reg) (wf : Waveform) :
    execOp (.setWave r.toSlot wf) s = .next (setWaveform r wf s) := by
  rw [setWaveform, apply_ite Host.Outcome.next]
  exact (whenReady_of_ready hf _).trans (withRegister_toSlot _ r _ _)

theorem execOp_enable (b : Bool) : execOp (.enable b) s = .next (s.setOutEn b).emitControl :=
  whenReady_of_ready hf _

theorem execOp_reset : execOp .reset s = .next ((s.deliver (.word rstw)).transmit rstw) :=
  whenReady_of_ready hf _

theorem execOp_sleep (b : Bool) : execOp (.sleep b) s = .next (s.setSleep b).emitControl :=
  whenReady_of_ready hf _

theorem execOp_setSrc {fs q : Reg} {ps : SlotCode} (h : resolveSlot fs ps = some q) :
    execOp (.setSrc fs.toSlot ps) s = .next ((s.deliver (.slot q)).setSource fs q).emitControl := by
  simp only [execOp, execSetSrc, whenReady_of_ready hf, withRegister_toSlot, withPhaseSelector, h]

end

section
variable {s t : State} (ht : t.fault.code = .none)
include ht

theorem withNumber_completes {p : Position} {x : Number} {k : Rat → Out} (h : withNumber p x s k = .next t) :
    ∃ q, x = .rat q ∧ k q = .next t := by
  obtain hgoes | rfl := withNumber_next h
  · exact hgoes
  · cases ht

theorem withRegister_completes {p : Position} {x : SlotCode} {k : Reg → Out}
    (h : withRegister p x s k = .next t) : ∃ r : Reg, x = r.toSlot ∧ k r = .next t := by
  obtain hgoes | rfl := withRegister_next h
  · exact hgoes
  · cases ht

theorem withPhaseSelector_completes {p : Position} {x : SlotCode} {fs : Reg} {k : Reg → Out}
    (h : withPhaseSelector p x fs s k = .next t) : ∃ q, resolveSlot fs x = some q ∧ k q = .next t := by
  obtain hgoes | rfl := withPhaseSelector_next h
  · exact hgoes
  · cases ht

/-- A slot and a number that were accepted: the continuation ran on the register and the exact value. -/
theorem withRegister_withNumber_completes {x : SlotCode} {n : Reg → Number} {f : Reg → Rat → State → State}
    (h : (withRegister .a x s fun r => withNumber .a (n r) s fun q => .next (f r q s)) = .next t) :
    ∃ r q, x = r.toSlot ∧ n r = .rat q ∧ t = f r q s := by
  obtain ⟨r, hr, h⟩ := withRegister_completes ht h
  obtain ⟨q, hq, h⟩ := withNumber_completes ht h
  injection h with h
  exact ⟨r, q, hr, hq, h.symm⟩

/-- An operation that ends without a fault did what it does. -/
theorem execOp_completes {o : HostOp} (h : execOp o s = .next t) : Completes s t o := by
  cases o <;> obtain ⟨hf, hrun⟩ := whenReady_next.mp h
  case setFreq | incFreq | setPhase | incPhase => exact withRegister_withNumber_completes ht hrun
  case setWave x wf =>
    obtain ⟨r, rfl, -⟩ := withRegister_completes ht hrun
    rw [execOp_setWave hf] at h
    injection h with h
    exact ⟨r, rfl, h.symm⟩
  case enable | reset | sleep => injection hrun with hrun; exact hrun.symm
  case setSrc x y =>
    obtain ⟨r, hr, hrun⟩ := withRegister_completes ht hrun
    obtain ⟨q, hq, hrun⟩ := withPhaseSelector_completes ht hrun
    injection hrun with hrun
    exact ⟨r, q, hr, hq, hrun.symm⟩

end

/-- Settles O51: the increments' check and continuation are the set operations'. -/
theorem incrementsAddToTheStoredValue : Obligations.IncrementsAddToTheStoredValue := fun s r d =>
  ⟨execOp_incFreq s r d, execOp_incPhase s r d⟩

/-! ## The Device State and the words (R121 to R129, R132, R133, R135) -/

@[simp] theorem setFrequency_emitted (r : Reg) (hz : Rat) (s : State) :
    (setFrequency r hz s).emitted
      = s.emitted ++ [s.controlWord, tagf r (splitLo (ftw s.ref (fclamp hz))),
          tagf r (splitUp (ftw s.ref (fclamp hz)))] := by
  have hcontrol : (s.setFreq r (fclamp hz)).controlWord = s.controlWord := rfl
  simp [setFrequency, hcontrol]

@[simp] theorem setFrequency_program (r : Reg) (hz : Rat) (s : State) :
    (setFrequency r hz s).program = s.program := by simp [setFrequency]

@[simp] theorem setFrequency_names (r : Reg) (hz : Rat) (s : State) :
    (setFrequency r hz s).names = s.names := by simp [setFrequency]

@[simp] theorem setPhaseDeg_emitted (r : Reg) (deg : Rat) (s : State) :
    (setPhaseDeg r deg s).emitted = s.emitted ++ [tagp r (phw deg)] := by simp [setPhaseDeg]

@[simp] theorem setPhaseDeg_program (r : Reg) (deg : Rat) (s : State) :
    (setPhaseDeg r deg s).program = s.program := by simp [setPhaseDeg]

@[simp] theorem setPhaseDeg_names (r : Reg) (deg : Rat) (s : State) :
    (setPhaseDeg r deg s).names = s.names := by simp [setPhaseDeg]

/-- SetPhase does not see whole turns (R91). -/
theorem setPhaseDeg_congr {p q : Rat} (h : pnorm p = pnorm q) (r : Reg) (s : State) :
    setPhaseDeg r p s = setPhaseDeg r q s := by simp only [setPhaseDeg, h, phw_congr h]

@[simp] theorem setWaveform_ds (r : Reg) (wf : Waveform) (s : State) :
    (setWaveform r wf s).ds = { s.ds with wave := s.ds.wave.set r wf } := by
  unfold setWaveform; split <;> rfl

@[simp] theorem setWaveform_emitted (r : Reg) (wf : Waveform) (s : State) :
    (setWaveform r wf s).emitted = s.emitted ++
      if r = s.ds.fsel then [ccw s.squareD3Swap (packCiv { s.ds with wave := s.ds.wave.set r wf })] else [] := by
  unfold setWaveform; split <;> simp [State.controlWord]

@[simp] theorem setWaveform_fault (r : Reg) (wf : Waveform) (s : State) :
    (setWaveform r wf s).fault = s.fault := by unfold setWaveform; split <;> rfl

@[simp] theorem setWaveform_squareD3Swap (r : Reg) (wf : Waveform) (s : State) :
    (setWaveform r wf s).squareD3Swap = s.squareD3Swap := by unfold setWaveform; split <;> rfl

@[simp] theorem setWaveform_program (r : Reg) (wf : Waveform) (s : State) :
    (setWaveform r wf s).program = s.program := by unfold setWaveform; split <;> rfl

@[simp] theorem setWaveform_names (r : Reg) (wf : Waveform) (s : State) :
    (setWaveform r wf s).names = s.names := by unfold setWaveform; split <;> rfl

/-- What a legal phase selector names (R109). -/
theorem resolveSlot_of_legal (fs : Reg) {ps : SlotCode} (h : ps ≠ .illegal) :
    ∃ q, resolveSlot fs ps = some q ∧ (ps = .same → q = fs) ∧ (ps ≠ .same → ps = q.toSlot) := by
  cases ps with
  | reg0 => exact ⟨.reg0, rfl, nofun, fun _ => rfl⟩
  | reg1 => exact ⟨.reg1, rfl, nofun, fun _ => rfl⟩
  | same => exact ⟨fs, rfl, fun _ => rfl, fun hne => absurd rfl hne⟩
  | illegal => exact absurd rfl h

/-- Settles O50: the stored frequency is the clamped one, and the control word does not read it. -/
theorem setFrequencyEmitsTheTriplet : Obligations.SetFrequencyEmitsTheTriplet := by
  intro s r r' hz hf hne f w
  refine ⟨_, execOp_setFreq hf r hz, ?_⟩
  rw [setFrequency_ds]
  exact ⟨Pair.get_set_self _ _ _, Pair.get_set_ne _ _ hne, rfl, setFrequency_emitted r hz s,
    setFrequency_fault r hz s, setFrequency_program r hz s, setFrequency_names r hz s⟩

/-- Settles O53: a second call stores what is stored, and the active slot is the same. -/
theorem setWaveformEmitsForTheActiveSlot : Obligations.SetWaveformEmitsForTheActiveSlot := by
  intro s r wf hf ds ws
  refine ⟨_, _, execOp_setWave hf r wf, setWaveform_ds r wf s, setWaveform_emitted r wf s,
    execOp_setWave ((congrArg _ (setWaveform_fault r wf s)).trans hf) r wf, ?_, ?_, setWaveform_fault r wf s,
    setWaveform_program r wf s, setWaveform_names r wf s⟩
  · simp only [setWaveform_ds, Pair.set_set, ds]
  · rw [setWaveform_emitted r wf (setWaveform r wf s)]
    simp only [setWaveform_ds, setWaveform_squareD3Swap, Pair.set_set, ws, ds]

/-- Settles O56: a legal phase selector names a register, and the control word is composed last. -/
theorem setSourceSelectsBothSlots : Obligations.SetSourceSelectsBothSlots := by
  intro s fs ps hf hps
  obtain ⟨q, hq, hsame, hreg⟩ := resolveSlot_of_legal fs hps
  exact ⟨_, q, execOp_setSrc hf hq, hsame, hreg, rfl, rfl, rfl, rfl⟩

/-- Settles O58: the words of each operation that completes. -/
theorem wordsPerOperation : Obligations.WordsPerOperation := by
  intro s t o h ht
  have hdone := execOp_completes ht h
  cases o
  case setFreq | incFreq => obtain ⟨r, q, -, -, rfl⟩ := hdone; simp
  case setPhase | incPhase => obtain ⟨r, q, -, -, rfl⟩ := hdone; simp
  case setWave =>
    obtain ⟨r, rfl, rfl⟩ := hdone
    simp only [setWaveform_emitted, List.length_append, Reg.toSlot_inj]
    split <;> rfl
  case setSrc => obtain ⟨r, q, -, -, rfl⟩ := hdone; simp
  case enable | reset | sleep => subst hdone; simp

/-! ## The chip (R123, R131, R134, R155) -/

/-- The chip's registers after SetFrequency on a chip in order: the named frequency register holds the tuning
word, the control register the live composition, and the others are as the control word left them. -/
theorem setFrequency_chip_registers {s : State} (hin : s.chip.inOrder) (r : Reg) (hz : Rat) :
    (setFrequency r hz s).chip.freq.get r = ftw s.ref (fclamp hz)
    ∧ (∀ r', r' ≠ r → (setFrequency r hz s).chip.freq.get r'
        = (s.chip.takeControl s.draws s.controlWord true).freq.get r')
    ∧ (setFrequency r hz s).chip.phase = (s.chip.takeControl s.draws s.controlWord true).phase
    ∧ (setFrequency r hz s).chip.control = s.controlWord
    ∧ (setFrequency r hz s).chip.expects = .idle := by
  obtain ⟨hfreq, hother, hphase, hcontrol, hexpects⟩ :=
    Chip.takeFreq_twice (Chip.takeControl_primes hin s.draws s.controlWord) (s.draws + 1) (s.draws + 2) r
      (splitLo (ftw s.ref (fclamp hz))) (splitUp (ftw s.ref (fclamp hz)))
  rw [setFrequency_chip]
  exact ⟨hfreq.trans (reassemble_halves _), hother, hphase, hcontrol, hexpects⟩

/-- The live composition wakes neither a chip that is awake nor, with `ds.sleep`, any chip (R155). -/
theorem controlWord_wakes_eq_false {s : State} (h : s.chip.sleeping = false ∨ s.ds.sleep = true) :
    s.chip.wakes s.controlWord = false := by
  obtain ⟨-, hclock, -, -⟩ := ccw_modeBits s.squareD3Swap s.ds
  exact Chip.wakes_eq_false (h.imp_right fun hsleep => .inl (hclock.trans hsleep))

/-- The two halves leave the control register that the live composition wrote, in any state of the chip. -/
theorem setFrequency_inReset (r : Reg) (hz : Rat) (s : State) :
    (setFrequency r hz s).chip.inReset = !s.ds.outEn := by
  rw [Chip.inReset, setFrequency_chip, Chip.takeFreq_control, Chip.takeFreq_control, Chip.takeControl_control]
  exact (ccw_modeBits _ _).1

/-- A phase word leaves the control register, in any state of the chip. -/
theorem setPhaseDeg_control (r : Reg) (deg : Rat) (s : State) :
    (setPhaseDeg r deg s).chip.control = s.chip.control := by
  rw [setPhaseDeg_chip, Chip.takePhase_control]

theorem setPhaseDeg_inReset (r : Reg) (deg : Rat) (s : State) :
    (setPhaseDeg r deg s).chip.inReset = s.chip.inReset := congrArg (·.getLsbD 8) (setPhaseDeg_control r deg s)

theorem setWaveform_inReset (r : Reg) (wf : Waveform) (s : State) :
    (setWaveform r wf s).chip.inReset = if r = s.ds.fsel then !s.ds.outEn else s.chip.inReset := by
  unfold setWaveform
  split
  · exact emitControl_inReset _
  · rfl

/-- After the live composition the chip's clock and DAC are off exactly if `ds.sleep` (R63). -/
theorem emitControl_clockOff_dacOff (s : State) :
    s.emitControl.chip.clockOff = s.ds.sleep ∧ s.emitControl.chip.dacOff = s.ds.sleep := by
  obtain ⟨-, hclock, hdac, -⟩ := ccw_modeBits s.squareD3Swap s.ds
  rw [State.emitControl_chip_taken]
  exact ⟨hclock, hdac⟩

/-- Two frequency rows hand over their words, one after the other. -/
theorem execAll_freqInstr_twice {s : State} (hf : s.fault.code = .none) (r : Reg) (lo up : Half) :
    execAll [freqInstr r lo, freqInstr r up] s
      = .next ((s.transmit (freqWord r lo)).transmit (freqWord r up)) := by
  simp only [execAll, exec_freqInstr, State.transmit_fault, hf]

/-- Settles O48: the control word primes the chip, and the two halves reassemble. -/
theorem chipPairsTwoHalvesAfterAControlWord : Obligations.ChipPairsTwoHalvesAfterAControlWord := by
  intro s b r r' lo up hf hin hne
  refine ⟨_, _, exec_ctrl hf b, execAll_freqInstr_twice (s := s.transmit _) hf r lo up, ?_⟩
  simp only [State.transmit_chip, Chip.take_controlWord, Chip.take_freqWord]
  obtain ⟨hfreq, hother, hphase, hcontrol, hexpects⟩ :=
    Chip.takeFreq_twice (Chip.takeControl_primes hin s.draws (controlWord true b)) _ _ r lo up
  rw [hfreq]
  exact ⟨reassemble_toNat lo up, hother r' hne, hphase, hcontrol, hexpects⟩

/-- Settles O52: PNORM takes whole turns away, and the phase word leaves the control register. -/
theorem setPhaseEmitsOnePhaseWord : Obligations.SetPhaseEmitsOnePhaseWord := by
  intro s r r' deg hf hne
  obtain ⟨k, hk⟩ := pnorm_eq_sub_turns deg
  obtain ⟨hnonneg, hlt⟩ := pnorm_bounds deg
  have hturn : pnorm (deg + 360) = pnorm deg := by simpa using pnorm_add_turns deg 1
  refine ⟨_, k, execOp_setPhase hf r deg, ?_⟩
  rw [setPhaseDeg_ds, Pair.get_set_self]
  exact ⟨hk, hnonneg, hlt, Pair.get_set_ne _ _ hne, rfl, setPhaseDeg_emitted r deg s,
    setPhaseDeg_inReset r deg s, setPhaseDeg_fault r deg s, setPhaseDeg_program r deg s,
    setPhaseDeg_names r deg s, (execOp_setPhase hf r _).trans (congrArg _ (setPhaseDeg_congr hturn r s))⟩

/-- Settles O54: the flag is stored first, so that the word carries it. -/
theorem enableAndSleepEmitTheControlWord : Obligations.EnableAndSleepEmitTheControlWord := by
  intro s b hf
  obtain ⟨hclock, hdac⟩ := emitControl_clockOff_dacOff (s.setSleep b)
  exact ⟨⟨_, execOp_enable hf b, rfl, rfl, emitControl_inReset _, rfl, rfl⟩,
    _, execOp_sleep hf b, rfl, rfl, hclock, hdac, emitControl_sleeping _, rfl, rfl⟩

/-- Settles O55: the reset-only word is 0x0100. -/
theorem resetEmitsTheLiteralWord : Obligations.ResetEmitsTheLiteralWord := fun s hf =>
  ⟨_, execOp_reset hf, rfl, rfl, reset_inReset s, rfl, rfl⟩

/-- Settles O57: the reset bit after each operation that completes. -/
theorem resetBitPersists : Obligations.ResetBitPersists := by
  intro s t o h ht
  have hdone := execOp_completes ht h
  cases o
  case setFreq | incFreq =>
    obtain ⟨r, q, -, -, rfl⟩ := hdone
    exact (setFrequency_inReset r q s).trans (by rw [setFrequency_ds])
  case setPhase | incPhase => obtain ⟨r, q, -, -, rfl⟩ := hdone; exact setPhaseDeg_inReset r q s
  case setWave =>
    obtain ⟨r, rfl, rfl⟩ := hdone
    simp only [Reg.toSlot_inj, setWaveform_inReset, setWaveform_ds]
    split <;> rfl
  case setSrc => obtain ⟨r, q, -, -, rfl⟩ := hdone; exact emitControl_inReset _
  case enable | sleep => subst hdone; exact emitControl_inReset _
  case reset => subst hdone; exact reset_inReset s

/-- Settles O59: the triplet on a chip in order; a control word that ends no sleep leaves the registers. -/
theorem setFrequencyProgramsTheChip : Obligations.SetFrequencyProgramsTheChip := by
  intro s r r' hz hf hin hne
  obtain ⟨hfreq, hother, hphase, hcontrol, hexpects⟩ := setFrequency_chip_registers hin r hz
  refine ⟨_, execOp_setFreq hf r hz, ?_, hcontrol, .inl hexpects, fun hawake => ?_⟩
  · rw [hfreq, setFrequency_ds, Pair.get_set_self]
  · have hwakes := controlWord_wakes_eq_false hawake
    rw [hother r' hne, hphase, Chip.takeControl_freq hwakes hin.not_betweenHalves, Chip.takeControl_phase hwakes]
    exact ⟨rfl, rfl⟩

/-- Settles O60: the phase word of the stored phase is that of the operand. -/
theorem setPhaseProgramsTheChip : Obligations.SetPhaseProgramsTheChip := by
  intro s r r' deg hf hne
  refine ⟨_, execOp_setPhase hf r deg, setPhaseDeg_control r deg s, fun hin => ?_⟩
  obtain ⟨hphase, hfreq⟩ := Chip.takePhase_inOrder_registers hin s.draws r (phw deg)
  rw [setPhaseDeg_ds, setPhaseDeg_chip, hphase, Pair.get_set_self, Pair.get_set_self,
    phw_congr (pnorm_pnorm deg)]
  exact ⟨rfl, Pair.get_set_ne _ _ hne, hfreq, Chip.takePhase_inOrder hin _ _ _⟩

end Machine
end Sys2Proof
end

section
/-! The exceptions (60_exceptions.md): a faulted machine has no step, what each ill-formed request records,
and that nothing else raises. -/

namespace Sys2Proof

theorem Number.isFinite_iff {x : Number} : x.isFinite = true ↔ ∃ q, x = .rat q := by
  cases x <;> simp [Number.isFinite]

theorem SlotCode.isRegister_iff {x : SlotCode} : x.isRegister = true ↔ ∃ r : Reg, x = r.toSlot := by
  refine ⟨fun h => ?_, fun ⟨r, h⟩ => ?_⟩
  · cases x with
    | reg0 => exact ⟨.reg0, rfl⟩
    | reg1 => exact ⟨.reg1, rfl⟩
    | same | illegal => cases h
  · cases r <;> exact h ▸ rfl

theorem SlotCode.isPhaseSelector_eq_false_iff {x : SlotCode} : x.isPhaseSelector = false ↔ x = .illegal := by
  cases x <;> decide

namespace Machine

/-! ## A faulted machine (R141, R142) -/

section
variable {s : State} (hfaulted : s.fault.code ≠ .none)
include hfaulted

theorem exec_of_faulted (i : Instr) : exec i s = .fault .faulted := by
  cases i <;> exact whenReady_of_faulted hfaulted _

theorem execOp_of_faulted (o : HostOp) : execOp o s = .fault .faulted := by
  cases o <;> exact whenReady_of_faulted hfaulted _

theorem step_of_faulted : step s = .fault .faulted := whenReady_of_faulted hfaulted _

end

/-- Settles O19: every meaning and the step begin with the guard of R142. -/
theorem faultedInstanceHasNoStep : Obligations.FaultedInstanceHasNoStep := fun _ h =>
  ⟨exec_of_faulted h, execOp_of_faulted h, step_of_faulted h⟩

/-- R141: a reference that is not positive is recorded, on the reset state without `REF` and Device State. -/
theorem construct_of_nonpos (cs : Nat) {ref : Rat} (h : ref ≤ 0) (swap : Bool) :
    construct cs ref swap =
      { State.reset with
        ref := Config.unsetReference, squareD3Swap := swap, chipSelect := cs,
        fault := ⟨.badReference, .reference ref⟩, ds := Config.uninitialisedDevice } :=
  if_neg (not_lt.mpr h)

/-- Settles O2: the rejected construction is faulted, whatever its program. -/
theorem constructionRejectsBadReference : Obligations.ConstructionRejectsBadReference := by
  intro cs ref swap h
  rw [construct_of_nonpos cs h]
  exact ⟨rfl, rfl, fun _ => step_of_faulted nofun⟩

/-- Settles O3: the numbers are the definition's. -/
theorem faultCodesAreNumbered : Obligations.FaultCodesAreNumbered := ⟨rfl, rfl, rfl, rfl, rfl⟩

/-! ## What a request raises (R143, R144, R145) -/

section
variable {s : State} (hf : s.fault.code = .none)
include hf

theorem exec_illegal0 : exec .illegal0 s = .next { s with fault := ⟨.illegalOpsel, .opsel 0x0⟩ } :=
  whenReady_of_ready hf _

theorem exec_illegalD : exec .illegalD s = .next { s with fault := ⟨.illegalOpsel, .opsel 0xD⟩ } :=
  whenReady_of_ready hf _

theorem exec_illegalE : exec .illegalE s = .next { s with fault := ⟨.illegalOpsel, .opsel 0xE⟩ } :=
  whenReady_of_ready hf _

theorem exec_illegalF : exec .illegalF s = .next { s with fault := ⟨.illegalOpsel, .opsel 0xF⟩ } :=
  whenReady_of_ready hf _

/-- RESOLVE with a register and the illegal code as its phase slot (R109). -/
theorem exec_resolve_illegal (r : Reg) :
    exec (.resolve r.toSlot .illegal) s = .next { s with fault := ⟨.illegalSlot, .slot .b .illegal⟩ } :=
  (whenReady_of_ready hf _).trans (withRegister_toSlot _ r _ _)

/-- A request whose number is not finite raises NONFINITE_INPUT, whatever it would go on with. -/
theorem request_nonfinite {x : Number} (hx : x.isFinite = false) (k : Rat → Out) :
    whenReady s (withNumber .a x s k) = .next { s with fault := ⟨.nonfiniteInput, .operand .a⟩ } := by
  rw [whenReady_of_ready hf, withNumber_of_nonfinite hx, raise]

end

/-- Settles O21: each row raises its own selector. -/
theorem illegalSelectorsRaise : Obligations.IllegalSelectorsRaise := fun _ hf =>
  ⟨exec_illegal0 hf, exec_illegalD hf, exec_illegalE hf, exec_illegalF hf⟩

/-- Settles O22: the three requests check their operand A at entry, and RESOLVE its operand B next. -/
theorem illegalSlotsRaise : Obligations.IllegalSlotsRaise := by
  intro s hf x hx
  have hx : x.isRegister = false := by rcases hx with rfl | rfl <;> rfl
  exact ⟨fun _ => entry_illegalSlot hf hx _, fun _ => entry_illegalSlot hf hx _,
    fun _ => entry_illegalSlot hf hx _, exec_resolve_illegal hf⟩

/-- Settles O23: the four requests check their operand at entry. -/
theorem nonfiniteOperandsRaise : Obligations.NonfiniteOperandsRaise := by
  intro s x hf hx
  have hx : x.isFinite = false := by rcases hx with rfl | rfl | rfl <;> rfl
  exact ⟨request_nonfinite hf hx _, request_nonfinite hf hx _, request_nonfinite hf hx _,
    request_nonfinite hf hx _⟩

/-! ## Legal and ill-formed instructions (R139, R140, R146) -/

/-- A raised fault is one of a request: neither NONE nor BAD_REFERENCE. -/
theorem Raised.fault_code {s t : State} (h : Raised s t) :
    t.fault.code ≠ .none ∧ t.fault.code ≠ .badReference := by
  obtain ⟨_, _, rfl | rfl | rfl, rfl⟩ := h <;> exact ⟨nofun, nofun⟩

section
variable {s : State} (hf : s.fault.code = .none) {i : Instr}
include hf

/-- An output word, composed or not, is handed to the transport. -/
theorem exec_outputWord (hword : isOutputWord i = true) : ∃ w, exec i s = .next (s.transmit w) := by
  cases i with
  | ctrl b => exact ⟨_, exec_ctrl hf b⟩
  | rstWord => exact ⟨_, exec_rstWord hf⟩
  | freq0 h => exact ⟨_, exec_freqInstr hf .reg0 h⟩
  | freq1 h => exact ⟨_, exec_freqInstr hf .reg1 h⟩
  | phase0 v => exact ⟨_, exec_phaseInstr hf .reg0 v⟩
  | phase1 v => exact ⟨_, exec_phaseInstr hf .reg1 v⟩
  | _ => cases hword

/-- A legal request delivers one result. -/
theorem exec_legalRequest (hreq : isOutputWord i = false) (hwf : i.wellFormed = true) :
    ∃ v, exec i s = .next (s.deliver v) := by
  cases i with
  | fclamp f => obtain ⟨q, rfl⟩ := Number.isFinite_iff.mp hwf; exact ⟨_, exec_fclamp hf q⟩
  | ftw f => obtain ⟨q, rfl⟩ := Number.isFinite_iff.mp hwf; exact ⟨_, exec_ftw hf q⟩
  | w2f w => exact ⟨_, exec_w2f hf w⟩
  | split w => exact ⟨_, exec_split hf w⟩
  | res => exact ⟨_, exec_res hf⟩
  | pnorm p => obtain ⟨q, rfl⟩ := Number.isFinite_iff.mp hwf; exact ⟨_, exec_pnorm hf q⟩
  | phw p => obtain ⟨q, rfl⟩ := Number.isFinite_iff.mp hwf; exact ⟨_, exec_phw hf q⟩
  | tagf x h => obtain ⟨r, rfl⟩ := SlotCode.isRegister_iff.mp hwf; exact ⟨_, exec_tagf hf r h⟩
  | tagp x v => obtain ⟨r, rfl⟩ := SlotCode.isRegister_iff.mp hwf; exact ⟨_, exec_tagp hf r v⟩
  | ccw c => exact ⟨_, exec_ccw hf c⟩
  | resolve fs ps =>
    obtain ⟨hfs, hps⟩ := Bool.and_eq_true_iff.mp hwf
    obtain ⟨r, rfl⟩ := SlotCode.isRegister_iff.mp hfs
    have hps : ps ≠ .illegal := by rintro rfl; cases hps
    obtain ⟨q, hq, _⟩ := resolveSlot_of_legal r hps
    exact ⟨_, exec_resolve hf hq⟩
  | rstw => exact ⟨_, exec_rstw hf⟩
  | illegal0 | illegalD | illegalE | illegalF => cases hwf
  | _ => cases hreq

/-- An ill-formed request raises the fault of its selector (R143), its first illegal slot (R144) or its
number (R145). -/
theorem exec_illFormedRequest (hreq : isOutputWord i = false) (hwf : i.wellFormed = false) :
    ∃ t, exec i s = .next t ∧ Raised s t := by
  cases i with
  | illegal0 => exact ⟨_, exec_illegal0 hf, raised_illegalOpsel s _⟩
  | illegalD => exact ⟨_, exec_illegalD hf, raised_illegalOpsel s _⟩
  | illegalE => exact ⟨_, exec_illegalE hf, raised_illegalOpsel s _⟩
  | illegalF => exact ⟨_, exec_illegalF hf, raised_illegalOpsel s _⟩
  | tagf x _ | tagp x _ => exact ⟨_, entry_illegalSlot hf hwf _, raised_illegalSlot s _⟩
  | resolve fs ps =>
    cases hfs : fs.isRegister with
    | false => exact ⟨_, entry_illegalSlot hf hfs _, raised_illegalSlot s _⟩
    | true =>
      obtain ⟨r, rfl⟩ := SlotCode.isRegister_iff.mp hfs
      have hps : ps.isPhaseSelector = false := by simpa only [Instr.wellFormed, hfs, Bool.true_and] using hwf
      obtain rfl := SlotCode.isPhaseSelector_eq_false_iff.mp hps
      exact ⟨_, exec_resolve_illegal hf r, raised_illegalSlot s _⟩
  | fclamp x | ftw x | pnorm x | phw x => exact ⟨_, request_nonfinite hf hwf _, raised_nonfinite s _⟩
  | w2f | split | res | ccw | rstw => cases hwf
  | _ => cases hreq

end

/-- Settles O25: an output word is handed over, a legal request delivers, and an ill-formed one raises. -/
theorem onlyIllegalRequestsFault : Obligations.OnlyIllegalRequestsFault := by
  refine fun s i hf => ⟨fun hlegal => ?_, fun hwf hreq => ?_⟩
  · cases hword : isOutputWord i with
    | true =>
      obtain ⟨w, hw⟩ := exec_outputWord hf hword
      exact ⟨_, hw, State.transmit_fault s w⟩
    | false =>
      obtain ⟨v, hv⟩ := exec_legalRequest hf hword (hlegal.resolve_right (by simp [hword]))
      exact ⟨_, hv, State.deliver_fault s v⟩
  · obtain ⟨t, ht, hraised⟩ := exec_illFormedRequest hf hreq hwf
    exact ⟨t, ht, hraised.fault_code⟩

end Machine
end Sys2Proof
end

section
/-! The hazards (70_reset_and_hazards.md): a program of requests and Write Sequencer operations leaves the chip
in order at every step. -/

namespace Sys2Proof.Machine

/-! ## The chip between host operations (R164) -/

/-- The live composition leaves a chip in order primed. -/
theorem emitControl_inOrder {s : State} (hin : s.chip.inOrder) : s.emitControl.chip.inOrder := by
  rw [State.emitControl_chip_taken]
  exact Chip.takeControl_inOrder hin _ _ _

/-- The triplet's two halves complete the update that its control word primed (R131). -/
theorem setFrequency_inOrder {s : State} (hin : s.chip.inOrder) (r : Reg) (hz : Rat) :
    (setFrequency r hz s).chip.inOrder := by
  obtain ⟨-, -, -, -, hexpects⟩ := setFrequency_chip_registers hin r hz
  exact .inl hexpects

theorem setPhaseDeg_inOrder {s : State} (hin : s.chip.inOrder) (r : Reg) (deg : Rat) :
    (setPhaseDeg r deg s).chip.inOrder := by
  rw [setPhaseDeg_chip]
  exact Chip.takePhase_inOrder hin _ _ _

/-- The reset-only word is a control word without D13. -/
theorem reset_inOrder {s : State} (hin : s.chip.inOrder) :
    ((s.deliver (.word rstw)).transmit rstw).chip.inOrder := by
  rw [State.transmit_chip, rstw, Chip.take_resetOnlyWord]
  exact Chip.takeControl_inOrder hin _ _ _

/-- A Write Sequencer operation hands over nothing (on a fault, or for the inactive slot's waveform), a control
word, a phase word, or a whole frequency update. -/
theorem execOp_inOrder {o : HostOp} {s t : State} (hin : s.chip.inOrder) (h : execOp o s = .next t) :
    t.chip.inOrder := by
  obtain ⟨_, ⟨_, _, _, rfl⟩ | ⟨r, q, rfl⟩ | ⟨r, q, rfl⟩ | ⟨r, wf, _, rfl⟩ | ⟨_, _, _, rfl⟩ | ⟨b, rfl⟩
    | rfl | ⟨b, rfl⟩ | ⟨r, q, rfl⟩⟩ := execOp_next_cases h
  · exact hin
  · exact setFrequency_inOrder hin r q
  · exact setPhaseDeg_inOrder hin r q
  · exact emitControl_inOrder (s := s.setWave r wf) hin
  · exact hin
  · exact emitControl_inOrder (s := s.setOutEn b) hin
  · exact reset_inOrder hin
  · exact emitControl_inOrder (s := s.setSleep b) hin
  · exact emitControl_inOrder (s := (s.deliver (.slot q)).setSource r q) hin

/-- A request hands no word to the chip (R23). -/
theorem exec_request_chip {i : Instr} {s t : State} (hreq : isOutputWord i = false)
    (h : exec i s = .next t) : t.chip = s.chip := by
  rw [requestsWriteNoState s t i hreq h]

/-- A request or a Write Sequencer operation keeps the chip in order; only EMIT could break it. -/
theorem runStmt_inOrder {x : Stmt} {s t : State} (hf : s.fault.code = .none) (hin : s.chip.inOrder)
    (hx : x.isContract = true) (h : runStmt x s = .next t) : t.chip.inOrder := by
  rcases runStmt_next hf h with ⟨i, u, into, n, _, hreq, hu, rfl⟩ | ⟨o, _, ho⟩ | ⟨w, hemit, _⟩
  · rwa [State.bindNames_chip, exec_request_chip hreq hu]
  · exact execOp_inOrder hin ho
  · simp [hx] at hemit

/-- Settles O18: a step runs nothing, or the first pending statement, which is no EMIT; the statements left to
run are the others. -/
theorem stepKeepsTheChipInOrder : Obligations.StepKeepsTheChipInOrder := by
  rintro s t ⟨hin, hprogram⟩ h
  obtain ⟨hf, ⟨_, rfl⟩ | ⟨x, rest, hcons, hx⟩⟩ := step_next h
  · exact ⟨hin, hprogram⟩
  · rw [hcons, List.all_cons, Bool.and_eq_true] at hprogram
    obtain ⟨hfirst, hrest⟩ := hprogram
    obtain ⟨hleft, _⟩ := runStmt_order (s := { s with program := rest }) hf hx
    exact ⟨runStmt_inOrder (s := { s with program := rest }) hf hin hfirst hx, by rwa [hleft]⟩

end Sys2Proof.Machine
end
